-- ==== Sys2Proof/Word.lean ====
section
/-! DEFINITION. The two machine word types of the core: the byte (registers, memory, timers) and the 16-bit word
(instruction words, I, PC, stack entries). spec/00_scope.md R13, R15: all values are unsigned. -/

namespace Sys2Proof

/-- An 8-bit byte: a V register, a timer, a memory cell. -/
abbrev Byte := BitVec 8

/-- A 16-bit word: an instruction word, I, PC, a stack entry. -/
abbrev Word := BitVec 16

end Sys2Proof
end

