-- ==== Sys2Proof/Config.lean ====
section
/-! DEFINITION. The implementation parameters of spec/00_scope.md R13, and the one free value of the model:
the byte source of `RND`. -/

namespace Sys2Proof.Config

/-- `MEM_SIZE` (R13): addresses 0x000 to 0xFFF. -/
abbrev memSize : Nat := 4096

/-- `STACK_DEPTH` (R13, R42). -/
abbrev stackDepth : Nat := 16

/-- `PROGRAM_START` (R13, R77). -/
abbrev programStart : Nat := 0x200

/-- `MAX_ROM` (R13, R383): 4096 - 0x200 bytes. -/
abbrev maxRom : Nat := 3584

/-- `RNG` (R13, R19, R47): the byte that draw number `k` gives. FREE VALUE (assumption log 3): it has no body, so nothing
can be proved of the bytes drawn, and a claim holds for every source (spec/92_eei_decisions.md D27). -/
opaque randomByte : Nat → Byte

end Sys2Proof.Config

namespace Sys2Proof

/-- `SHIFT_SOURCE` (R4, R163): which register `SHR` and `SHL` read. -/
inductive ShiftSource where
  /-- shift Vx in place -/
  | vx
  /-- shift Vy into Vx -/
  | vy
deriving DecidableEq, Repr

/-- The two dialect parameters of R4 and R13. The spec gives each as an argument of the model; the model holds them in
`State.dialect`, so that a statement about every state holds for both values (assumption log 4). -/
structure Dialect where
  /-- `SHIFT_SOURCE` -/
  shiftSource : ShiftSource
  /-- `ADDI_SETS_VF` -/
  addISetsVF : Bool
deriving DecidableEq, Repr

end Sys2Proof
end

