-- ==== Sys2Proof/Machine/Flags.lean ====
section
/-! DEFINITION. Every value the spec writes into VF as a flag (spec/10_state.md R37; spec/41_arithmetic_logic.md R162). -/

namespace Sys2Proof.Machine

/-- A flag is 0 or 1, never another value (R162). -/
def flagByte (b : Bool) : Byte := if b then 1 else 0

/-- The carry of `ADD Vx, Vy` (R156): 1 iff a + b > 255. -/
def carryFlag (a b : Byte) : Byte := flagByte (decide (a.toNat + b.toNat > 255))

/-- The no-borrow flag of `SUB` and `SUBN` (R157, R159): 1 iff a >= b. -/
def noBorrowFlag (a b : Byte) : Byte := flagByte (decide (a.toNat ≥ b.toNat))

/-- The bit `SHR` shifts out: bit 0 (R158). -/
def shiftedOutRight (b : Byte) : Byte := b &&& 1

/-- The bit `SHL` shifts out: bit 7 (R160). -/
def shiftedOutLeft (b : Byte) : Byte := b >>> 7

/-- The flag of `ADD I, Vx` under `ADDI_SETS_VF` (R252): 1 iff the sum passes 0xFFF. -/
def indexOverflowFlag (sum : Nat) : Byte := flagByte (decide (sum > 0xFFF))

/-- The collision flag of `DRN` (R282). -/
def collisionFlag (hit : Bool) : Byte := flagByte hit

end Sys2Proof.Machine
end

