-- ==== Sys2Proof/Syntax.lean ====
section
/-! DEFINITION. The 35 instructions of spec/30_encoding.md R107, one constructor per row of spec/opcode_table.json, with the
operand fields R102 and R109 give each: an ignored bit is no field. -/

namespace Sys2Proof

/-- The index of a V register, a 4-bit field `x` or `y` (R30, R104). -/
abbrev RegIndex := Fin 16

/-- The operation descriptors of R102 but `Invalid`. `x`, `y` name registers; `kk`, `nnn`, `n` are unsigned immediates. -/
inductive Instr where
  /-- `SYS nnn` (R220) -/
  | sys (nnn : BitVec 12)
  /-- `CLS` (R280) -/
  | cls
  /-- `RET` (R224) -/
  | ret
  /-- `JP nnn` (R222) -/
  | jp (nnn : BitVec 12)
  /-- `CALL nnn` (R223) -/
  | call (nnn : BitVec 12)
  /-- `SE Vx, kk` (R200) -/
  | seImm (x : RegIndex) (kk : Byte)
  /-- `SNE Vx, kk` (R201) -/
  | sneImm (x : RegIndex) (kk : Byte)
  /-- `SE Vx, Vy` (R202) -/
  | seReg (x y : RegIndex)
  /-- `LD Vx, kk` (R150) -/
  | ldImm (x : RegIndex) (kk : Byte)
  /-- `ADD Vx, kk` (R151) -/
  | addImm (x : RegIndex) (kk : Byte)
  /-- `LD Vx, Vy` (R152) -/
  | ldReg (x y : RegIndex)
  /-- `OR Vx, Vy` (R153) -/
  | orReg (x y : RegIndex)
  /-- `AND Vx, Vy` (R154) -/
  | andReg (x y : RegIndex)
  /-- `XOR Vx, Vy` (R155) -/
  | xorReg (x y : RegIndex)
  /-- `ADD Vx, Vy` (R156) -/
  | addReg (x y : RegIndex)
  /-- `SUB Vx, Vy` (R157) -/
  | sub (x y : RegIndex)
  /-- `SHR Vx, Vy` (R158) -/
  | shr (x y : RegIndex)
  /-- `SUBN Vx, Vy` (R159) -/
  | subn (x y : RegIndex)
  /-- `SHL Vx, Vy` (R160) -/
  | shl (x y : RegIndex)
  /-- `SNE Vx, Vy` (R203) -/
  | sneReg (x y : RegIndex)
  /-- `LD I, nnn` (R250) -/
  | ldI (nnn : BitVec 12)
  /-- `JP V0, nnn` (R228) -/
  | jpV0 (nnn : BitVec 12)
  /-- `RND Vx, kk` (R165) -/
  | rnd (x : RegIndex) (kk : Byte)
  /-- `DRN Vx, Vy, n` (R282) -/
  | drn (x y : RegIndex) (n : BitVec 4)
  /-- `SKP Vx` (R300) -/
  | skp (x : RegIndex)
  /-- `SKNP Vx` (R301) -/
  | sknp (x : RegIndex)
  /-- `LD Vx, DT` (R320) -/
  | ldVxDT (x : RegIndex)
  /-- `LD Vx, K` (R302) -/
  | ldVxK (x : RegIndex)
  /-- `LD DT, Vx` (R322) -/
  | ldDTVx (x : RegIndex)
  /-- `LD ST, Vx` (R324) -/
  | ldSTVx (x : RegIndex)
  /-- `ADD I, Vx` (R252) -/
  | addI (x : RegIndex)
  /-- `LD F, Vx` (R254) -/
  | ldF (x : RegIndex)
  /-- `LD B, Vx` (R256) -/
  | ldB (x : RegIndex)
  /-- `LD [I], Vx` (R258) -/
  | ldMemVx (x : RegIndex)
  /-- `LD Vx, [I]` (R260) -/
  | ldVxMem (x : RegIndex)
deriving DecidableEq, Repr

end Sys2Proof
end

