-- ==== Sys2Proof/WellFormed.lean ====
section
/-! DEFINITION. Which terms of `Instr` are instructions of the opcode map. Operand widths are in the types; the one check left
is R107 row 1 (spec/30_encoding.md): a word of the 0 group whose low byte is 0xE0 or 0xEE is `CLS` or `RET`, never `SYS`. -/

namespace Sys2Proof

/-- The low byte `kk` of a 12-bit address field (R104). -/
def lowByte (nnn : BitVec 12) : Byte := nnn.setWidth 8

/-- The check of R107 row 1 on the operand of `SYS`: "kk ≠ E0, EE". -/
def sysOperandOk (nnn : BitVec 12) : Bool := lowByte nnn != 0xE0 && lowByte nnn != 0xEE

/-- An instruction is well-formed: some word of the opcode map stands for it (R107). -/
def Instr.wf : Instr → Bool
  | .sys nnn => sysOperandOk nnn
  | .cls | .ret | .jp _ | .call _ | .seImm _ _ | .sneImm _ _ | .seReg _ _ | .ldImm _ _ | .addImm _ _ | .ldReg _ _
  | .orReg _ _ | .andReg _ _ | .xorReg _ _ | .addReg _ _ | .sub _ _ | .shr _ _ | .subn _ _ | .shl _ _ | .sneReg _ _
  | .ldI _ | .jpV0 _ | .rnd _ _ | .drn _ _ _ | .skp _ | .sknp _ | .ldVxDT _ | .ldVxK _ | .ldDTVx _ | .ldSTVx _
  | .addI _ | .ldF _ | .ldB _ | .ldMemVx _ | .ldVxMem _ => true

end Sys2Proof
end

