-- ==== Sys2Proof/Decode.lean ====
section
/-! DEFINITION. The Opcode Decoder of spec/30_encoding.md (R101 to R109): a total function of the word, and after it the
encoder, written from the opcode map R107. Opcode values: assumption log 9. -/

namespace Sys2Proof

/-- The decoder's output (R102): an instruction with its fields, or `Invalid`, which carries the whole word. -/
inductive Descriptor where
  | instr (i : Instr)
  | invalid (w : Word)
deriving DecidableEq, Repr

/-- What decoding a byte sequence gives: the instruction and the bytes after it, or a rejection by name. -/
inductive Decoded where
  | ok (i : Instr) (rest : List Byte)
  /-- the word is `Invalid` (R108) -/
  | invalidOpcode (w : Word)
  /-- fewer than the two bytes of an instruction word stand there (R100; assumption log 13) -/
  | truncated
deriving DecidableEq, Repr

/-! ## Fields (R104) -/

/-- `op = w[15:12]` -/
def opField (w : Word) : BitVec 4 := w.extractLsb' 12 4

/-- `x = w[11:8]` -/
def xField (w : Word) : RegIndex := (w.extractLsb' 8 4).toFin

/-- `y = w[7:4]` -/
def yField (w : Word) : RegIndex := (w.extractLsb' 4 4).toFin

/-- `n = w[3:0]` -/
def nField (w : Word) : BitVec 4 := w.extractLsb' 0 4

/-- `kk = w[7:0]` -/
def kkField (w : Word) : Byte := w.extractLsb' 0 8

/-- `nnn = w[11:0]` -/
def nnnField (w : Word) : BitVec 12 := w.extractLsb' 0 12

/-! ## Byte order (R71) -/

/-- The word of two bytes in memory order: the high byte comes first. -/
def wordOfBytes (hi lo : Byte) : Word := (hi.setWidth 16 <<< 8) ||| lo.setWidth 16

/-- The byte of a word that stands at the lower address. -/
def highByte (w : Word) : Byte := w.extractLsb' 8 8

/-- The byte of a word that stands at the higher address. -/
def lowByteOfWord (w : Word) : Byte := w.extractLsb' 0 8

/-! ## The decoder (R106) -/

/-- Top nibble 0x0: the secondary lookup on the low byte. -/
def decodeGroup0 (w : Word) : Descriptor :=
  if kkField w = 0xE0 then .instr .cls
  else if kkField w = 0xEE then .instr .ret
  else .instr (.sys (nnnField w))

/-- Top nibble 0x8: the secondary lookup on the low nibble. -/
def decodeGroup8 (w : Word) : Descriptor :=
  match (nField w).toNat with
  | 0x0 => .instr (.ldReg (xField w) (yField w))
  | 0x1 => .instr (.orReg (xField w) (yField w))
  | 0x2 => .instr (.andReg (xField w) (yField w))
  | 0x3 => .instr (.xorReg (xField w) (yField w))
  | 0x4 => .instr (.addReg (xField w) (yField w))
  | 0x5 => .instr (.sub (xField w) (yField w))
  | 0x6 => .instr (.shr (xField w) (yField w))
  | 0x7 => .instr (.subn (xField w) (yField w))
  | 0xE => .instr (.shl (xField w) (yField w))
  | _ => .invalid w

/-- Top nibble 0xE: the secondary lookup on the low byte. -/
def decodeGroupE (w : Word) : Descriptor :=
  if kkField w = 0x9E then .instr (.skp (xField w))
  else if kkField w = 0xA1 then .instr (.sknp (xField w))
  else .invalid w

/-- Top nibble 0xF: the secondary lookup on the low byte. -/
def decodeGroupF (w : Word) : Descriptor :=
  if kkField w = 0x07 then .instr (.ldVxDT (xField w))
  else if kkField w = 0x0A then .instr (.ldVxK (xField w))
  else if kkField w = 0x15 then .instr (.ldDTVx (xField w))
  else if kkField w = 0x18 then .instr (.ldSTVx (xField w))
  else if kkField w = 0x1E then .instr (.addI (xField w))
  else if kkField w = 0x29 then .instr (.ldF (xField w))
  else if kkField w = 0x33 then .instr (.ldB (xField w))
  else if kkField w = 0x55 then .instr (.ldMemVx (xField w))
  else if kkField w = 0x65 then .instr (.ldVxMem (xField w))
  else .invalid w

/-- The Opcode Decoder (R101, R106): a lookup on the top nibble, and for 0x0, 0x8, 0xE and 0xF a secondary lookup. -/
def decodeWord (w : Word) : Descriptor :=
  match (opField w).toNat with
  | 0x0 => decodeGroup0 w
  | 0x1 => .instr (.jp (nnnField w))
  | 0x2 => .instr (.call (nnnField w))
  | 0x3 => .instr (.seImm (xField w) (kkField w))
  | 0x4 => .instr (.sneImm (xField w) (kkField w))
  | 0x5 => .instr (.seReg (xField w) (yField w))
  | 0x6 => .instr (.ldImm (xField w) (kkField w))
  | 0x7 => .instr (.addImm (xField w) (kkField w))
  | 0x8 => decodeGroup8 w
  | 0x9 => .instr (.sneReg (xField w) (yField w))
  | 0xA => .instr (.ldI (nnnField w))
  | 0xB => .instr (.jpV0 (nnnField w))
  | 0xC => .instr (.rnd (xField w) (kkField w))
  | 0xD => .instr (.drn (xField w) (yField w) (nField w))
  | 0xE => decodeGroupE w
  | 0xF => decodeGroupF w
  | _ => .invalid w

/-- The decoder on bytes in memory order: two bytes, big-endian (R71, R100), then the rest. -/
def decodeBytes : List Byte → Decoded
  | hi :: lo :: rest =>
    match decodeWord (wordOfBytes hi lo) with
    | .instr i => .ok i rest
    | .invalid w => .invalidOpcode w
  | _ => .truncated

/-- The word of the first `nbits` bits of `w`, the bits above them zero. -/
def tableWord (nbits w : Nat) : Word := BitVec.ofNat 16 (w % 2 ^ nbits)

/-- What the decoder reads from the opcode-table word `w` of `nbits` bits, laid out as the hardware stores it. -/
def decodeTableWord (nbits w : Nat) : Option Instr :=
  match decodeBytes [highByte (tableWord nbits w), lowByteOfWord (tableWord nbits w)] with
  | .ok i _ => some i
  | .invalidOpcode _ => none
  | .truncated => none

/-! ## The encoder (R107; an ignored bit is encoded as 0) -/

/-- The 4-bit field of a register index. -/
def regBits (x : RegIndex) : BitVec 4 := BitVec.ofFin x

/-- `op nnn` -/
def encodeAddress (op : BitVec 4) (nnn : BitVec 12) : Word := (op.setWidth 16 <<< 12) ||| nnn.setWidth 16

/-- `op x kk` -/
def encodeByte (op : BitVec 4) (x : RegIndex) (kk : Byte) : Word :=
  (op.setWidth 16 <<< 12) ||| ((regBits x).setWidth 16 <<< 8) ||| kk.setWidth 16

/-- `op x y n` -/
def encodeRegs (op : BitVec 4) (x y : RegIndex) (n : BitVec 4) : Word :=
  (op.setWidth 16 <<< 12) ||| ((regBits x).setWidth 16 <<< 8) ||| ((regBits y).setWidth 16 <<< 4) ||| n.setWidth 16

/-- The word of an instruction, from the pattern of its row of R107. -/
def encode : Instr → Word
  | .sys nnn => encodeAddress 0x0 nnn
  | .cls => encodeAddress 0x0 0x0E0
  | .ret => encodeAddress 0x0 0x0EE
  | .jp nnn => encodeAddress 0x1 nnn
  | .call nnn => encodeAddress 0x2 nnn
  | .seImm x kk => encodeByte 0x3 x kk
  | .sneImm x kk => encodeByte 0x4 x kk
  | .seReg x y => encodeRegs 0x5 x y 0x0
  | .ldImm x kk => encodeByte 0x6 x kk
  | .addImm x kk => encodeByte 0x7 x kk
  | .ldReg x y => encodeRegs 0x8 x y 0x0
  | .orReg x y => encodeRegs 0x8 x y 0x1
  | .andReg x y => encodeRegs 0x8 x y 0x2
  | .xorReg x y => encodeRegs 0x8 x y 0x3
  | .addReg x y => encodeRegs 0x8 x y 0x4
  | .sub x y => encodeRegs 0x8 x y 0x5
  | .shr x y => encodeRegs 0x8 x y 0x6
  | .subn x y => encodeRegs 0x8 x y 0x7
  | .shl x y => encodeRegs 0x8 x y 0xE
  | .sneReg x y => encodeRegs 0x9 x y 0x0
  | .ldI nnn => encodeAddress 0xA nnn
  | .jpV0 nnn => encodeAddress 0xB nnn
  | .rnd x kk => encodeByte 0xC x kk
  | .drn x y n => encodeRegs 0xD x y n
  | .skp x => encodeByte 0xE x 0x9E
  | .sknp x => encodeByte 0xE x 0xA1
  | .ldVxDT x => encodeByte 0xF x 0x07
  | .ldVxK x => encodeByte 0xF x 0x0A
  | .ldDTVx x => encodeByte 0xF x 0x15
  | .ldSTVx x => encodeByte 0xF x 0x18
  | .addI x => encodeByte 0xF x 0x1E
  | .ldF x => encodeByte 0xF x 0x29
  | .ldB x => encodeByte 0xF x 0x33
  | .ldMemVx x => encodeByte 0xF x 0x55
  | .ldVxMem x => encodeByte 0xF x 0x65

/-- The bytes of an instruction in memory order (R71). -/
def encodeBytes (i : Instr) : List Byte := [highByte (encode i), lowByteOfWord (encode i)]

/-- The bits of its word an instruction does not ignore (R109). -/
def usedBits : Instr → Word
  | .cls | .ret => 0xF0FF
  | .seReg _ _ | .sneReg _ _ => 0xFFF0
  | .sys _ | .jp _ | .call _ | .seImm _ _ | .sneImm _ _ | .ldImm _ _ | .addImm _ _ | .ldReg _ _ | .orReg _ _
  | .andReg _ _ | .xorReg _ _ | .addReg _ _ | .sub _ _ | .shr _ _ | .subn _ _ | .shl _ _ | .ldI _ | .jpV0 _ | .rnd _ _
  | .drn _ _ _ | .skp _ | .sknp _ | .ldVxDT _ | .ldVxK _ | .ldDTVx _ | .ldSTVx _ | .addI _ | .ldF _ | .ldB _
  | .ldMemVx _ | .ldVxMem _ => 0xFFFF

end Sys2Proof
end

