-- ==== Sys2Proof/Machine/Dialect.lean ====
section
/-! DEFINITION. The default values of the two dialect parameters (spec/92_eei_decisions.md D5, D6; spec/00_scope.md R13). -/

namespace Sys2Proof.Machine

/-- `SHIFT_SOURCE = VX`, `ADDI_SETS_VF = false` (assumption log 4). -/
def defaultDialect : Dialect := { shiftSource := .vx, addISetsVF := false }

end Sys2Proof.Machine
end

