-- ==== Sys2Proof/Machine/Memory.lean ====
section
/-! DEFINITION. The memory of spec/20_memory.md: 4096 bytes at 0x000 to 0xFFF (R70), held as the list of the bytes that differ
from the reset contents, in one canonical form (assumption log 7). -/

namespace Sys2Proof.Machine

/-- Memory as (address, byte) pairs: addresses strictly rising, no entry equal to what an unlisted address reads as. -/
abbrev Memory := List Host.Cell

/-- `FONT_BASE` (R78, R13). -/
def fontBase : Nat := 0x050

/-- The font of R78: glyph `d` is entry `d`, 5 bytes each (assumption log 9). -/
def font : List (List Byte) :=
  [[0xF0, 0x90, 0x90, 0x90, 0xF0], [0x20, 0x60, 0x20, 0x20, 0x70], [0xF0, 0x10, 0xF0, 0x80, 0xF0],
   [0xF0, 0x10, 0xF0, 0x10, 0xF0]] ++
  [[0x90, 0x90, 0xF0, 0x10, 0x10], [0xF0, 0x80, 0xF0, 0x10, 0xF0], [0xF0, 0x80, 0xF0, 0x90, 0xF0],
   [0xF0, 0x10, 0x20, 0x40, 0x40]] ++
  [[0xF0, 0x90, 0xF0, 0x90, 0xF0], [0xF0, 0x90, 0xF0, 0x10, 0xF0], [0xF0, 0x90, 0xF0, 0x90, 0x90],
   [0xE0, 0x90, 0xE0, 0x90, 0xE0]] ++
  [[0xF0, 0x80, 0x80, 0x80, 0xF0], [0xE0, 0x90, 0x90, 0x90, 0xE0], [0xF0, 0x80, 0xF0, 0x80, 0xF0],
   [0xF0, 0x80, 0xF0, 0x80, 0x80]]

/-- What an unlisted address reads as: the reset contents of R55, the font at 0x050 to 0x09F and 0x00 elsewhere. -/
def resetByte (a : Nat) : Byte :=
  if fontBase ≤ a ∧ a < fontBase + 80 then (font.getD ((a - fontBase) / 5) []).getD ((a - fontBase) % 5) 0 else 0

/-- Memory right after `construct`: nothing differs from the reset contents. -/
def Memory.initial : Memory := []

/-- `MemRead(a, 1)` (R17). -/
def Memory.read : Memory → Nat → Byte
  | [], a => resetByte a
  | (k, b) :: rest, a => if k = a then b else Memory.read rest a

/-- List the byte `b` at `a`, keeping the addresses rising. -/
def Memory.insert (a : Nat) (b : Byte) : Memory → Memory
  | [] => [(a, b)]
  | (k, c) :: rest =>
    if a < k then (a, b) :: (k, c) :: rest
    else if a = k then (a, b) :: rest
    else (k, c) :: Memory.insert a b rest

/-- Take the address `a` off the list. -/
def Memory.erase (a : Nat) (m : Memory) : Memory := m.filter fun c => c.1 != a

/-- `MemWrite(a, 1, b)` (R17), keeping the canonical form. Every instruction checks its addresses first (R74), so no
instruction writes above 0xFFF; such a write is discarded here (assumption log 7). -/
def Memory.write (m : Memory) (a : Nat) (b : Byte) : Memory :=
  if a < Config.memSize then
    if b = resetByte a then Memory.erase a m else Memory.insert a b m
  else m

/-- Write bytes at ascending addresses (R72). -/
def Memory.writeBytes (m : Memory) (base : Nat) : List Byte → Memory
  | [] => m
  | b :: rest => Memory.writeBytes (m.write base b) (base + 1) rest

/-- Read `count` bytes at ascending addresses (R72). -/
def Memory.readBytes (m : Memory) (base count : Nat) : List Byte :=
  (List.range count).map fun j => m.read (base + j)

/-- The canonical form of memory: addresses strictly rising and inside the 4096 bytes, no entry equal to the reset contents. -/
abbrev Memory.wf (m : Memory) : Prop :=
  m.Pairwise (fun c d => c.1 < d.1) ∧ ∀ c ∈ m, c.1 < Config.memSize ∧ c.2 ≠ resetByte c.1

end Sys2Proof.Machine
end

