-- ==== Sys2Proof/Machine/State.lean ====
section
/-! DEFINITION. The architectural state of spec/10_state.md (R30 to R56), every field of it, and the state after reset. -/

namespace Sys2Proof.Machine

/-- The fatal conditions of R340 with the information of R341 (spec/60_exceptions.md). A step that raises one answers a NEXT
state whose run state holds it; a step of a core that already holds one answers the outcome `fault` with it, again and again
(R131; assumption log 1). Each is safe: the machine stops where the spec says it reports and stops. -/
inductive Fault where
  /-- raised by `step` when the fetched word decodes to `Invalid` (R134); safe -/
  | invalidOpcode (addr word : Word)
  /-- raised by `CALL` with 16 entries on the stack (R223); safe -/
  | stackOverflow (pc : Word) (depth : Nat)
  /-- raised by `RET` with an empty stack (R224); safe -/
  | stackUnderflow (pc : Word) (depth : Nat)
  /-- raised by the fetch (with no word), `DRN`, `LD B`, `LD [I]`, `LD Vx, [I]` and `JP V0` (R73, R74, R228); safe -/
  | memoryOutOfBounds (addr : Nat) (word : Option Word)
  /-- reported by `load` for a ROM that does not fit (R383); no step raises it; safe -/
  | loadError (len : Nat)
deriving DecidableEq, Repr

/-- Why the model itself would refuse. Every instruction has its meaning, so nothing raises it. -/
inductive Refusal where
  /-- an instruction without a meaning, by its mnemonic in the opcode table; safe; no arm of `exec` answers it -/
  | notModelled (mnemonic : String)
deriving DecidableEq, Repr

/-- The run state of R50. -/
inductive RunState where
  /-- the next step fetches at PC -/
  | running
  /-- an `LD Vx, K` at PC waits for a key, for register `x` -/
  | awaitingKey (x : RegIndex)
  /-- a fatal condition was raised (R52) -/
  | faulted (f : Fault)
deriving DecidableEq, Repr

/-- The 64 x 32 grid of R44, row-major: 32 rows of 64 pixels, `true` is on. -/
abbrev Framebuffer := Vector (Vector Bool 64) 32

/-- The keypad snapshot of R45: one boolean per key, `true` is pressed. -/
abbrev Keypad := Vector Bool 16

/-- The whole state of the core, one record (spec/10_state.md). -/
structure State where
  /-- V0 to VF (R30) -/
  v : Vector Byte 16
  /-- the index register I (R41) -/
  i : Word
  /-- the program counter (R33) -/
  pc : Word
  /-- the return stack, oldest entry first; its length is the depth `sp` (R42) -/
  stack : List Word
  /-- the delay timer DT (R39) -/
  dt : Byte
  /-- the sound timer ST (R40) -/
  st : Byte
  /-- the framebuffer (R44) -/
  fb : Framebuffer
  /-- the keypad snapshot (R45) -/
  keys : Keypad
  /-- the 4096 bytes of memory (R46) -/
  mem : Memory
  /-- the run state (R50) -/
  run : RunState
  /-- how many bytes were drawn from `RNG`: the model's own counter, no state of the spec (assumption log 3) -/
  draws : Nat
  /-- the parameters `SHIFT_SOURCE` and `ADDI_SETS_VF`, which nothing writes (assumption log 4) -/
  dialect : Dialect
deriving DecidableEq, Repr

/-- Every pixel off (R44, R280). -/
def Framebuffer.off : Framebuffer := Vector.replicate 32 (Vector.replicate 64 false)

/-- Every key released (R45). -/
def Keypad.released : Keypad := Vector.replicate 16 false

/-- The state after `construct` (R55, R380). -/
def State.reset : State where
  v := Vector.replicate 16 0
  i := 0
  pc := 0x200
  stack := []
  dt := 0
  st := 0
  fb := Framebuffer.off
  keys := Keypad.released
  mem := Memory.initial
  run := .running
  draws := 0
  dialect := defaultDialect

end Sys2Proof.Machine
end

