-- ==== Sys2Proof/Machine/Operands.lean ====
section
/-! DEFINITION. Every operand form of spec/41 to 47: register operands, immediates, the key index, the shift source, the
effective addresses, and the 8-bit results of the arithmetic (R161). Everything here only reads the state. -/

namespace Sys2Proof.Machine

/-- `V[x]` (R16, R30). -/
def State.getV (s : State) (x : RegIndex) : Byte := s.v[x]

/-- The depth of the stack (R42). -/
def State.sp (s : State) : Nat := s.stack.length

/-- `zext_16(nnn)` (R105). -/
def addressOperand (nnn : BitVec 12) : Word := nnn.setWidth 16

/-- The key `V[x] & 0xF` that `SKP` and `SKNP` test (R304; spec decision D13). -/
def State.keyOperand (s : State) (x : RegIndex) : Fin 16 := Fin.ofNat 16 ((s.getV x).toNat % 16)

/-- The byte `SHR` and `SHL` shift (R163). -/
def State.shiftOperand (s : State) (x y : RegIndex) : Byte :=
  match s.dialect.shiftSource with
  | .vx => s.getV x
  | .vy => s.getV y

/-- The effective address of byte `j` of a transfer: `I + j`, an unbounded natural (R74, R262). -/
def State.transferAddress (s : State) (j : Nat) : Nat := s.i.toNat + j

/-- `I + V[x]`, the unbounded sum of `ADD I, Vx` (R252). -/
def State.indexSum (s : State) (x : RegIndex) : Nat := s.i.toNat + (s.getV x).toNat

/-- The target of `JP V0, nnn`, an unbounded natural (R228). -/
def State.jumpV0Target (s : State) (nnn : BitVec 12) : Nat := nnn.toNat + (s.getV 0).toNat

/-- The address of the glyph of the low nibble of `b` (R254). -/
def glyphAddress (b : Byte) : Word := BitVec.ofNat 16 (fontBase + 5 * (b.toNat % 16))

/-- `(a + b) mod 256` (R161). -/
def add8 (a b : Byte) : Byte := BitVec.ofNat 8 ((a.toNat + b.toNat) % 256)

/-- `(a + 256 - b) mod 256` (R161). -/
def sub8 (a b : Byte) : Byte := BitVec.ofNat 8 ((a.toNat + 256 - b.toNat) % 256)

/-- `s >> 1` (R158). -/
def shiftRight1 (b : Byte) : Byte := b >>> 1

/-- `(s << 1) mod 256` (R160). -/
def shiftLeft1 (b : Byte) : Byte := b <<< 1

/-- The three decimal digits of `b`, hundreds first (R256; spec decision D11). -/
def decimalDigits (b : Byte) : List Byte :=
  [BitVec.ofNat 8 (b.toNat / 100), BitVec.ofNat 8 (b.toNat / 10 % 10), BitVec.ofNat 8 (b.toNat % 10)]

/-- V0 to Vx in order, the bytes `LD [I], Vx` stores (R258). -/
def State.registersUpTo (s : State) (x : RegIndex) : List Byte :=
  (List.range (x.val + 1)).map fun j => s.getV (Fin.ofNat 16 j)

/-- Sprite bit `7 - c`: column `c` of a sprite row, bit 7 leftmost (R282; spec decision D15). -/
def spriteBit (row : Byte) (c : Nat) : Bool := row.getLsbD (7 - c)

end Sys2Proof.Machine
end

