-- ==== Sys2Proof/Machine/Ops.lean ====
section
/-! DEFINITION. The named operations over registers, memory, stack, framebuffer and run state that the meanings are written
with, and raising a fatal condition. The core has no return from one (spec/60_exceptions.md R346): only `load` leaves
`Faulted` (Transactions.lean). -/

namespace Sys2Proof.Machine

/-- What a meaning answers. -/
abbrev Result := Host.Outcome State Fault Refusal

/-! ## Registers and PC -/

/-- `V[x] <- b` (R16). -/
def State.setV (s : State) (x : RegIndex) (b : Byte) : State := { s with v := s.v.set x b }

/-- `V[F] <- flag`, the last register write of an instruction (R21, R162). -/
def State.setFlag (s : State) (b : Byte) : State := s.setV 15 b

/-- `V[j] <- t[j]` for j in 0..x (R260). -/
def State.setRegistersUpTo (s : State) (x : RegIndex) (t : Nat → Byte) : State :=
  { s with v := Vector.ofFn fun j => if j ≤ x then t j.val else s.v[j] }

/-- `pc <- p + 2` (R135). -/
def State.advance (s : State) : State := { s with pc := s.pc + 2 }

/-- `pc <- (if c then p + 4 else p + 2)` (R204). -/
def State.skipIf (s : State) (c : Bool) : State := { s with pc := if c then s.pc + 4 else s.pc + 2 }

/-! ## Raising a fatal condition -/

/-- `raise E(info)` (R18, R344): every register, memory byte, stack entry, timer and pixel stays, PC included; the run state
holds the condition. -/
def State.raise (s : State) (f : Fault) : State := { s with run := .faulted f }

/-- The bounds check of R74 on the `count` addresses from `base`: the lowest one above 0xFFF, if there is one. -/
def lowestOutOfBounds (base count : Nat) : Option Nat :=
  if count ≥ 1 ∧ base + count - 1 > 0xFFF then some (max base 0x1000) else none

/-- A memory instruction (R74, R136): check the whole transfer of `count` bytes at I; raise with the instruction's word and
write nothing, or answer `done` (the word: assumption log 5). -/
def State.withTransfer (s : State) (count : Nat) (instr : Instr) (done : State) : Result :=
  match lowestOutOfBounds s.i.toNat count with
  | some a => .next (s.raise (.memoryOutOfBounds a (some (encode instr))))
  | none => .next done

/-! ## Stack (R42) -/

/-- `stack[sp] <- a; sp <- sp + 1`. -/
def State.push (s : State) (a : Word) : State := { s with stack := s.stack ++ [a] }

/-- `sp <- sp - 1`. -/
def State.drop (s : State) : State := { s with stack := s.stack.dropLast }

/-! ## Framebuffer (R44, R282) -/

/-- `FB[px][py]`. -/
def Framebuffer.get (fb : Framebuffer) (px : Fin 64) (py : Fin 32) : Bool := fb[py][px]

/-- `FB[px][py] <- not FB[px][py]`. -/
def Framebuffer.toggle (fb : Framebuffer) (px : Fin 64) (py : Fin 32) : Framebuffer :=
  fb.set py (fb[py].set px (!fb.get px py))

/-- A draw in progress: the grid and `hit`. -/
structure Canvas where
  fb : Framebuffer
  hit : Bool
deriving DecidableEq, Repr

/-- One pixel of R282's inner loop: a set sprite bit toggles its pixel, and hits if the pixel was on. -/
def Canvas.plot (k : Canvas) (bit : Bool) (px : Fin 64) (py : Fin 32) : Canvas :=
  if bit then { fb := k.fb.toggle px py, hit := k.hit || k.fb.get px py } else k

/-- One row of R282: columns 0..7, wrapping at 64. -/
def Canvas.plotRow (k : Canvas) (x0 py : Nat) (row : Byte) : Canvas :=
  (List.range 8).foldl (fun k c => k.plot (spriteBit row c) (Fin.ofNat 64 (x0 + c)) (Fin.ofNat 32 py)) k

/-- The rows of R282 from row `py` on, wrapping at 32. -/
def Canvas.plotRows (k : Canvas) (x0 py : Nat) : List Byte → Canvas
  | [] => k
  | row :: rest => (k.plotRow x0 py row).plotRows x0 (py + 1) rest

/-! ## Key wait (R303) -/

/-- The least pressed key. -/
def leastPressed (keys : Keypad) : Option (Fin 16) := (List.finRange 16).find? fun k => keys[k]

/-- A step made while `run = AwaitingKey(x)` (R303): nothing, or the least pressed key into Vx. -/
def State.awaitKey (s : State) (x : RegIndex) : State :=
  match leastPressed s.keys with
  | none => s
  | some k => { (s.setV x (BitVec.ofNat 8 k.val)).advance with run := .running }

/-! ## Fetch (R71, R73) -/

/-- The big-endian word at address `a`. -/
def Memory.readWord (m : Memory) (a : Nat) : Word := wordOfBytes (m.read a) (m.read (a + 1))

/-- Store the word `w` at address `a`, high byte first. -/
def Memory.writeWord (m : Memory) (a : Nat) (w : Word) : Memory := m.writeBytes a [highByte w, lowByteOfWord w]

/-- The result of a fetch. -/
inductive Fetched where
  | word (w : Word)
  | outOfBounds (addr : Nat)
deriving DecidableEq, Repr

/-- `fetch(pc)` (R73): check `pc`, then `pc + 1`, then read the word. -/
def State.fetch (s : State) : Fetched :=
  if s.pc.toNat > 0xFFF then .outOfBounds s.pc.toNat
  else if s.pc.toNat + 1 > 0xFFF then .outOfBounds (s.pc.toNat + 1)
  else .word (s.mem.readWord s.pc.toNat)

/-- Put the word `w` where the next step fetches (assumption log 8): at PC, with the run state `Running`; a PC that no fetch can
use is first set to `PROGRAM_START`. -/
def State.placeWord (s : State) (w : Word) : State :=
  let pc : Word := if s.pc.toNat + 1 > 0xFFF then BitVec.ofNat 16 Config.programStart else s.pc
  { s with pc := pc, run := .running, mem := s.mem.writeWord pc.toNat w }

end Sys2Proof.Machine
end

