-- ==== Sys2Proof/Machine/Arithmetic.lean ====
section
/-! DEFINITION. Loads, arithmetic, logic, shifts and `RND` (spec/41_arithmetic_logic.md). -/

namespace Sys2Proof.Machine

/-- The end of an instruction that writes Vx and no flag. -/
def State.writeVx (s : State) (x : RegIndex) (b : Byte) : Result := .next (s.setV x b).advance

/-- The end of an instruction that writes Vx and then VF as a flag (R162). -/
def State.writeVxFlag (s : State) (x : RegIndex) (b flag : Byte) : Result := .next ((s.setV x b).setFlag flag).advance

/-- `LD Vx, kk` (R150). -/
def execLdImm (x : RegIndex) (kk : Byte) (s : State) : Result := s.writeVx x kk

/-- `ADD Vx, kk` (R151): no carry (spec decision D8). -/
def execAddImm (x : RegIndex) (kk : Byte) (s : State) : Result := s.writeVx x (add8 (s.getV x) kk)

/-- `LD Vx, Vy` (R152). -/
def execLdReg (x y : RegIndex) (s : State) : Result := s.writeVx x (s.getV y)

/-- `OR Vx, Vy` (R153): no flag (spec decision D9). -/
def execOrReg (x y : RegIndex) (s : State) : Result := s.writeVx x (s.getV x ||| s.getV y)

/-- `AND Vx, Vy` (R154): no flag (spec decision D9). -/
def execAndReg (x y : RegIndex) (s : State) : Result := s.writeVx x (s.getV x &&& s.getV y)

/-- `XOR Vx, Vy` (R155): no flag (spec decision D9). -/
def execXorReg (x y : RegIndex) (s : State) : Result := s.writeVx x (s.getV x ^^^ s.getV y)

/-- `ADD Vx, Vy` (R156). -/
def execAddReg (x y : RegIndex) (s : State) : Result :=
  s.writeVxFlag x (add8 (s.getV x) (s.getV y)) (carryFlag (s.getV x) (s.getV y))

/-- `SUB Vx, Vy` (R157). -/
def execSub (x y : RegIndex) (s : State) : Result :=
  s.writeVxFlag x (sub8 (s.getV x) (s.getV y)) (noBorrowFlag (s.getV x) (s.getV y))

/-- `SHR Vx, Vy` (R158). -/
def execShr (x y : RegIndex) (s : State) : Result :=
  s.writeVxFlag x (shiftRight1 (s.shiftOperand x y)) (shiftedOutRight (s.shiftOperand x y))

/-- `SUBN Vx, Vy` (R159). -/
def execSubn (x y : RegIndex) (s : State) : Result :=
  s.writeVxFlag x (sub8 (s.getV y) (s.getV x)) (noBorrowFlag (s.getV y) (s.getV x))

/-- `SHL Vx, Vy` (R160). -/
def execShl (x y : RegIndex) (s : State) : Result :=
  s.writeVxFlag x (shiftLeft1 (s.shiftOperand x y)) (shiftedOutLeft (s.shiftOperand x y))

/-- `draw_rand()` (R19): the byte of this draw, a free value (assumption log 3). -/
def State.drawnByte (s : State) : Byte := Config.randomByte s.draws

/-- The draw is used up: the next `RND` takes a fresh one. -/
def State.countDraw (s : State) : State := { s with draws := s.draws + 1 }

/-- `RND Vx, kk` (R165). -/
def execRnd (x : RegIndex) (kk : Byte) (s : State) : Result := s.countDraw.writeVx x (s.drawnByte &&& kk)

end Sys2Proof.Machine
end

