-- ==== Sys2Proof/Machine/Control.lean ====
section
/-! DEFINITION. Jumps, calls, returns and `SYS` (spec/43_control_transfer.md). -/

namespace Sys2Proof.Machine

/-- `SYS nnn` (R220): advances PC, whatever nnn is. -/
def execSys (_nnn : BitVec 12) (s : State) : Result := .next s.advance

/-- `JP nnn` (R222). -/
def execJp (nnn : BitVec 12) (s : State) : Result := .next { s with pc := addressOperand nnn }

/-- `CALL nnn` (R223). "sp = 16" is written as "not below 16" (assumption log 6). -/
def execCall (nnn : BitVec 12) (s : State) : Result :=
  if s.sp < Config.stackDepth then .next { s.push (s.pc + 2) with pc := addressOperand nnn }
  else .next (s.raise (.stackOverflow s.pc s.sp))

/-- `RET` (R224): the popped address is not checked (spec decision D20). -/
def execRet (s : State) : Result :=
  match s.stack.getLast? with
  | none => .next (s.raise (.stackUnderflow s.pc s.sp))
  | some a => .next { s.drop with pc := a }

/-- `JP V0, nnn` (R228). -/
def execJpV0 (nnn : BitVec 12) (s : State) : Result :=
  if s.jumpV0Target nnn > 0xFFF then
    .next (s.raise (.memoryOutOfBounds (s.jumpV0Target nnn) (some (encode (.jpV0 nnn)))))
  else .next { s with pc := BitVec.ofNat 16 (s.jumpV0Target nnn) }

end Sys2Proof.Machine
end

