-- ==== Sys2Proof/Machine/Graphics.lean ====
section
/-! DEFINITION. Clear screen and sprite draw (spec/45_graphics.md). -/

namespace Sys2Proof.Machine

/-- `CLS` (R280). -/
def execCls (s : State) : Result := .next { s.advance with fb := Framebuffer.off }

/-- The draw of R282: the sprite's rows at (Vx mod 64, Vy mod 32), read before any pixel changes. -/
def State.drawn (s : State) (x y : RegIndex) (n : BitVec 4) : Canvas :=
  Canvas.plotRows { fb := s.fb, hit := false } ((s.getV x).toNat % 64) ((s.getV y).toNat % 32)
    (s.mem.readBytes (s.transferAddress 0) n.toNat)

/-- `DRN Vx, Vy, n` (R282): n = 0 draws nothing (spec decision D14). -/
def execDrn (x y : RegIndex) (n : BitVec 4) (s : State) : Result :=
  s.withTransfer n.toNat (.drn x y n)
    ({ s with fb := (s.drawn x y n).fb }.setFlag (collisionFlag (s.drawn x y n).hit)).advance

end Sys2Proof.Machine
end

