-- ==== Sys2Proof/Machine/IndexMemory.lean ====
section
/-! DEFINITION. The index register and the memory transfers (spec/44_memory_index.md). -/

namespace Sys2Proof.Machine

/-- `LD I, nnn` (R250). -/
def execLdI (nnn : BitVec 12) (s : State) : Result := .next { s.advance with i := addressOperand nnn }

/-- `ADD I, Vx` (R252): 16-bit wrap (spec decision D7); VF only under `ADDI_SETS_VF` (D6). -/
def execAddI (x : RegIndex) (s : State) : Result :=
  if s.dialect.addISetsVF then
    .next ({ s.advance with i := BitVec.ofNat 16 (s.indexSum x) }.setFlag (indexOverflowFlag (s.indexSum x)))
  else .next { s.advance with i := BitVec.ofNat 16 (s.indexSum x) }

/-- `LD F, Vx` (R254). -/
def execLdF (x : RegIndex) (s : State) : Result := .next { s.advance with i := glyphAddress (s.getV x) }

/-- `LD B, Vx` (R256). -/
def execLdB (x : RegIndex) (s : State) : Result :=
  s.withTransfer 3 (.ldB x)
    { s.advance with mem := s.mem.writeBytes (s.transferAddress 0) (decimalDigits (s.getV x)) }

/-- `LD [I], Vx` (R258): I unchanged (spec decision D10). -/
def execLdMemVx (x : RegIndex) (s : State) : Result :=
  s.withTransfer (x.val + 1) (.ldMemVx x)
    { s.advance with mem := s.mem.writeBytes (s.transferAddress 0) (s.registersUpTo x) }

/-- `LD Vx, [I]` (R260): I unchanged (spec decision D10). -/
def execLdVxMem (x : RegIndex) (s : State) : Result :=
  s.withTransfer (x.val + 1) (.ldVxMem x)
    (s.setRegistersUpTo x fun j => s.mem.read (s.transferAddress j)).advance

end Sys2Proof.Machine
end

