-- ==== Sys2Proof/Machine/Input.lean ====
section
/-! DEFINITION. The keypad instructions (spec/46_input.md). The completing step of `LD Vx, K` is `State.awaitKey` (Ops.lean). -/

namespace Sys2Proof.Machine

/-- `SKP Vx` (R300). -/
def execSkp (x : RegIndex) (s : State) : Result := .next (s.skipIf s.keys[s.keyOperand x])

/-- `SKNP Vx` (R301). -/
def execSknp (x : RegIndex) (s : State) : Result := .next (s.skipIf (!s.keys[s.keyOperand x]))

/-- `LD Vx, K` (R302), the executing step: no key is sampled (spec decision D16). -/
def execLdVxK (x : RegIndex) (s : State) : Result := .next { s with run := .awaitingKey x }

end Sys2Proof.Machine
end

