-- ==== Sys2Proof/Machine/Skips.lean ====
section
/-! DEFINITION. The conditional skips on registers (spec/42_skips.md). -/

namespace Sys2Proof.Machine

/-- `SE Vx, kk` (R200). -/
def execSeImm (x : RegIndex) (kk : Byte) (s : State) : Result := .next (s.skipIf (s.getV x == kk))

/-- `SNE Vx, kk` (R201). -/
def execSneImm (x : RegIndex) (kk : Byte) (s : State) : Result := .next (s.skipIf (s.getV x != kk))

/-- `SE Vx, Vy` (R202). -/
def execSeReg (x y : RegIndex) (s : State) : Result := .next (s.skipIf (s.getV x == s.getV y))

/-- `SNE Vx, Vy` (R203). -/
def execSneReg (x y : RegIndex) (s : State) : Result := .next (s.skipIf (s.getV x != s.getV y))

end Sys2Proof.Machine
end

