-- ==== Sys2Proof/Machine/Timers.lean ====
section
/-! DEFINITION. The timer instructions (spec/47_timers.md). The countdown is `State.tickTimers` (Transactions.lean). -/

namespace Sys2Proof.Machine

/-- `LD Vx, DT` (R320). -/
def execLdVxDT (x : RegIndex) (s : State) : Result := .next (s.setV x s.dt).advance

/-- `LD DT, Vx` (R322). -/
def execLdDTVx (x : RegIndex) (s : State) : Result := .next { s.advance with dt := s.getV x }

/-- `LD ST, Vx` (R324). -/
def execLdSTVx (x : RegIndex) (s : State) : Result := .next { s.advance with st := s.getV x }

end Sys2Proof.Machine
end

