-- ==== Sys2Proof/Machine/Cycle.lean ====
section
/-! DEFINITION. The fetch-decode-execute step (spec/40_execution_cycle.md R130), in the order of checks of R343. -/

namespace Sys2Proof.Machine

/-- A step while `Running`: fetch (R133), decode (R134), execute. -/
def runInstruction (s : State) : Result :=
  match s.fetch with
  | .outOfBounds a => .next (s.raise (.memoryOutOfBounds a none))
  | .word w =>
    match decodeWord w with
    | .invalid u => .next (s.raise (.invalidOpcode s.pc u))
    | .instr i => exec i s

/-- The whole `step` transaction (R130): a faulted core repeats its fault (R131), a waiting core looks at the keypad (R132), a
running core executes one instruction. -/
def cycle (s : State) : Result :=
  match s.run with
  | .faulted f => .fault f
  | .awaitingKey x => .next (s.awaitKey x)
  | .running => runInstruction s

end Sys2Proof.Machine
end

