-- ==== Sys2Proof/Machine/Transactions.lean ====
section
/-! DEFINITION. The transactions of the block's interface (spec/00_scope.md R10) beside `step`, the result of a step
(spec/40_execution_cycle.md R137), and a schedule of transactions (spec/60_exceptions.md R361). Assumption log 2. -/

namespace Sys2Proof.Machine

/-- The result of a `step` (R137). -/
inductive StepResult where
  | ok
  | waitingForKey
  | fatal (f : Fault)
  /-- the model's own: the model has no meaning for the instruction; no step gives it -/
  | refused (r : Refusal)
deriving DecidableEq, Repr

/-- The result of a `load` (R382, R383). -/
inductive LoadResult where
  | ok
  | loadError (f : Fault)
deriving DecidableEq, Repr

/-- The numeric code of a fatal condition (R340; spec decision D24). -/
def Fault.code : Fault → Nat
  | .invalidOpcode _ _ => 1
  | .stackOverflow _ _ => 2
  | .stackUnderflow _ _ => 3
  | .memoryOutOfBounds _ _ => 4
  | .loadError _ => 5

/-- The result that goes with the run state a step left (R130, R137; assumption log 11). -/
def RunState.result : RunState → StepResult
  | .running => .ok
  | .awaitingKey _ => .waitingForKey
  | .faulted f => .fatal f

/-- `step()` with its result (R130). A faulted core changes nothing and returns its condition again (R131). -/
def State.stepTransaction (s : State) : State × StepResult :=
  match step s with
  | .next t => (t, t.run.result)
  | .fault f => (s, .fatal f)
  | .refused r => (s, .refused r)

/-- `construct` (R380). -/
def construct : State := State.reset

/-- The state a successful `load` leaves (R382): all state but the keypad; the model's own counter of draws and the dialect
parameters are no state of the core and stay (assumption logs 3 and 4). -/
def State.loaded (s : State) (rom : List Byte) : State :=
  { State.reset with
    mem := Memory.initial.writeBytes Config.programStart rom
    keys := s.keys
    draws := s.draws
    dialect := s.dialect }

/-- `load(rom)` (R382, R383). -/
def State.load (s : State) (rom : List Byte) : State × LoadResult :=
  if Config.programStart + rom.length > Config.memSize then (s, .loadError (.loadError rom.length))
  else (s.loaded rom, .ok)

/-- One timer, one tick (R360). -/
def tickTimer (b : Byte) : Byte := if b.toNat > 0 then BitVec.ofNat 8 (b.toNat - 1) else 0

/-- `tick_timers()` (R360). -/
def State.tickTimers (s : State) : State := { s with dt := tickTimer s.dt, st := tickTimer s.st }

/-- `set_keys(k)` (R363). -/
def State.setKeys (s : State) (k : Keypad) : State := { s with keys := k }

/-- `framebuffer_snapshot()` (R365). -/
def State.framebufferSnapshot (s : State) : Framebuffer := s.fb

/-- `should_beep()` (R367). -/
def State.shouldBeep (s : State) : Bool := decide (s.st.toNat > 0)

/-- A transaction on an existing core (R10); `construct` makes a core (assumption log 12). -/
inductive Transaction where
  | load (rom : List Byte)
  | step
  | tickTimers
  | setKeys (k : Keypad)
  | framebufferSnapshot
  | shouldBeep
deriving DecidableEq, Repr

/-- What a transaction returns (R10). -/
inductive Response where
  | nothing
  | load (r : LoadResult)
  | step (r : StepResult)
  | frame (fb : Framebuffer)
  | beep (b : Bool)
deriving DecidableEq, Repr

/-- One transaction, atomic (R10). -/
def State.perform (s : State) : Transaction → State × Response
  | .load rom => ((s.load rom).1, .load (s.load rom).2)
  | .step => (s.stepTransaction.1, .step s.stepTransaction.2)
  | .tickTimers => (s.tickTimers, .nothing)
  | .setKeys k => (s.setKeys k, .nothing)
  | .framebufferSnapshot => (s, .frame s.framebufferSnapshot)
  | .shouldBeep => (s, .beep s.shouldBeep)

/-- The state after a schedule of transactions, in order (R361: any interleaving is legal). -/
def runSchedule (s : State) : List Transaction → State
  | [] => s
  | a :: rest => runSchedule (s.perform a).1 rest

end Sys2Proof.Machine
end

