-- ==== Sys2Proof/Safety.lean ====
section
/-! DEFINITION. The terms claims use: what counts as a safe state, the invariant of the machine, and the spec's tables of what
each instruction reads, writes and may raise, written from the tables and not from the meanings. -/

namespace Sys2Proof

/-! ## The opcode map as a table -/

/-- One row of the opcode map R107: mask, match and the instruction its fields give. -/
structure OpcodeRow where
  mask : Word
  pattern : Word
  build : Word → Instr

/-- Rows 2 to 35 of R107, with the fields of R104 as bit slices of the word. -/
def opcodeMap : List OpcodeRow :=
  let x (w : Word) : RegIndex := Fin.ofNat 16 (w.toNat / 256 % 16)
  let y (w : Word) : RegIndex := Fin.ofNat 16 (w.toNat / 16 % 16)
  let n (w : Word) : BitVec 4 := BitVec.ofNat 4 (w.toNat % 16)
  let kk (w : Word) : Byte := BitVec.ofNat 8 (w.toNat % 256)
  let nnn (w : Word) : BitVec 12 := BitVec.ofNat 12 (w.toNat % 4096)
  [⟨0xF0FF, 0x00E0, fun _ => .cls⟩, ⟨0xF0FF, 0x00EE, fun _ => .ret⟩, ⟨0xF000, 0x1000, fun w => .jp (nnn w)⟩,
   ⟨0xF000, 0x2000, fun w => .call (nnn w)⟩, ⟨0xF000, 0x3000, fun w => .seImm (x w) (kk w)⟩,
   ⟨0xF000, 0x4000, fun w => .sneImm (x w) (kk w)⟩, ⟨0xF000, 0x5000, fun w => .seReg (x w) (y w)⟩,
   ⟨0xF000, 0x6000, fun w => .ldImm (x w) (kk w)⟩, ⟨0xF000, 0x7000, fun w => .addImm (x w) (kk w)⟩] ++
  [⟨0xF00F, 0x8000, fun w => .ldReg (x w) (y w)⟩, ⟨0xF00F, 0x8001, fun w => .orReg (x w) (y w)⟩,
   ⟨0xF00F, 0x8002, fun w => .andReg (x w) (y w)⟩, ⟨0xF00F, 0x8003, fun w => .xorReg (x w) (y w)⟩,
   ⟨0xF00F, 0x8004, fun w => .addReg (x w) (y w)⟩, ⟨0xF00F, 0x8005, fun w => .sub (x w) (y w)⟩,
   ⟨0xF00F, 0x8006, fun w => .shr (x w) (y w)⟩, ⟨0xF00F, 0x8007, fun w => .subn (x w) (y w)⟩,
   ⟨0xF00F, 0x800E, fun w => .shl (x w) (y w)⟩] ++
  [⟨0xF000, 0x9000, fun w => .sneReg (x w) (y w)⟩, ⟨0xF000, 0xA000, fun w => .ldI (nnn w)⟩,
   ⟨0xF000, 0xB000, fun w => .jpV0 (nnn w)⟩, ⟨0xF000, 0xC000, fun w => .rnd (x w) (kk w)⟩,
   ⟨0xF000, 0xD000, fun w => .drn (x w) (y w) (n w)⟩, ⟨0xF0FF, 0xE09E, fun w => .skp (x w)⟩,
   ⟨0xF0FF, 0xE0A1, fun w => .sknp (x w)⟩] ++
  [⟨0xF0FF, 0xF007, fun w => .ldVxDT (x w)⟩, ⟨0xF0FF, 0xF00A, fun w => .ldVxK (x w)⟩,
   ⟨0xF0FF, 0xF015, fun w => .ldDTVx (x w)⟩, ⟨0xF0FF, 0xF018, fun w => .ldSTVx (x w)⟩,
   ⟨0xF0FF, 0xF01E, fun w => .addI (x w)⟩, ⟨0xF0FF, 0xF029, fun w => .ldF (x w)⟩, ⟨0xF0FF, 0xF033, fun w => .ldB (x w)⟩,
   ⟨0xF0FF, 0xF055, fun w => .ldMemVx (x w)⟩, ⟨0xF0FF, 0xF065, fun w => .ldVxMem (x w)⟩]

end Sys2Proof

namespace Sys2Proof.Machine

/-! ## Safe states and the invariant -/

/-- No fatal condition was raised (spec/10_state.md R52). -/
def State.safe (s : State) : Prop := ∀ f, s.run ≠ .faulted f

/-- The invariant of the machine: it holds at reset and every transaction keeps it. -/
structure State.Inv (s : State) : Prop where
  /-- memory keeps its canonical form (assumption log 7) -/
  memory_canonical : s.mem.wf
  /-- the depth of the stack never exceeds its capacity (R42) -/
  depth_bounded : s.sp ≤ 16
  /-- every return address is at most 0x1000 (R223) -/
  returns_bounded : ∀ a ∈ s.stack, a.toNat ≤ 0x1000
  /-- PC never passes 0x1002 (R36) -/
  pc_bounded : s.pc.toNat ≤ 0x1002
  /-- a waiting or faulted core stands exactly where its instruction left it: the step from the same state, running, gives this
  state again (R50 and R345: PC is still at the instruction, and nothing else of it took effect) -/
  stopped_replays : s.run ≠ .running → step { s with run := .running } = .next s

/-- The V registers an instruction writes (R32). -/
def writtenRegs (d : Dialect) : Instr → List RegIndex
  | .ldImm x _ | .addImm x _ | .ldReg x _ | .orReg x _ | .andReg x _ | .xorReg x _ | .rnd x _ | .ldVxDT x => [x]
  | .addReg x _ | .sub x _ | .subn x _ | .shr x _ | .shl x _ => [x, 15]
  | .drn _ _ _ => [15]
  | .addI _ => if d.addISetsVF then [15] else []
  | .ldVxMem x => (List.finRange 16).filter (· ≤ x)
  | .sys _ | .cls | .ret | .jp _ | .call _ | .seImm _ _ | .sneImm _ _ | .seReg _ _ | .sneReg _ _ | .ldI _ | .jpV0 _
  | .skp _ | .sknp _ | .ldVxK _ | .ldDTVx _ | .ldSTVx _ | .ldF _ | .ldB _ | .ldMemVx _ => []

/-- The V registers the rule of an instruction reads (R32: "only the registers its rule names"). -/
def readRegs (d : Dialect) : Instr → List RegIndex
  | .addImm x _ | .seImm x _ | .sneImm x _ | .skp x | .sknp x | .ldDTVx x | .ldSTVx x | .addI x | .ldF x | .ldB x => [x]
  | .ldReg _ y => [y]
  | .orReg x y | .andReg x y | .xorReg x y | .addReg x y | .sub x y | .subn x y | .seReg x y | .sneReg x y
  | .drn x y _ => [x, y]
  | .shr x y | .shl x y => if d.shiftSource = .vx then [x] else [y]
  | .jpV0 _ => [0]
  | .ldMemVx x => (List.finRange 16).filter (· ≤ x)
  | .sys _ | .cls | .ret | .jp _ | .call _ | .ldImm _ _ | .rnd _ _ | .ldI _ | .ldVxDT _ | .ldVxK _ | .ldVxMem _ => []

/-- The fatal conditions an instruction can raise once it is fetched and decoded (R342). -/
def mayRaise : Instr → Fault → Prop
  | .call _, .stackOverflow _ _ => True
  | .ret, .stackUnderflow _ _ => True
  | .drn _ _ _, .memoryOutOfBounds _ _ => True
  | .ldB _, .memoryOutOfBounds _ _ => True
  | .ldMemVx _, .memoryOutOfBounds _ _ => True
  | .ldVxMem _, .memoryOutOfBounds _ _ => True
  | .jpV0 _, .memoryOutOfBounds _ _ => True
  | _, _ => False

/-- The condition of a skip, and `none` for an instruction that is no skip (R200 to R203, R300, R301, R304). -/
def skipCondition (s : State) : Instr → Option Bool
  | .seImm x kk => some (decide (s.getV x = kk))
  | .sneImm x kk => some (decide (s.getV x ≠ kk))
  | .seReg x y => some (decide (s.getV x = s.getV y))
  | .sneReg x y => some (decide (s.getV x ≠ s.getV y))
  | .skp x => some s.keys[(s.getV x).toNat % 16]
  | .sknp x => some (!s.keys[(s.getV x).toNat % 16])
  | _ => none

/-- The bytes of memory an instruction stores to: the first address and how many (R75). -/
def storedBytes (s : State) : Instr → Nat × Nat
  | .ldB _ => (s.transferAddress 0, 3)
  | .ldMemVx x => (s.transferAddress 0, x.val + 1)
  | _ => (0, 0)

/-- The address `a` is one of the bytes an instruction stores to. -/
def storesTo (s : State) (i : Instr) (a : Nat) : Prop :=
  (storedBytes s i).1 ≤ a ∧ a < (storedBytes s i).1 + (storedBytes s i).2

/-- Nothing but V registers changed, and PC moved past the instruction. -/
def sameButRegisters (s t : State) : Prop := t = { s with v := t.v, pc := s.pc + 2 }

/-- Nothing but memory bytes changed, and PC moved past the instruction. -/
def sameButMemory (s t : State) : Prop := t = { s with mem := t.mem, pc := s.pc + 2 }

/-- The pixel (px, py) lies under a set bit of the sprite that `DRN Vx, Vy, n` reads at I (R282): bit 7 of a row is its
leftmost pixel, and columns wrap at 64, rows at 32. -/
def underSprite (s : State) (x y : RegIndex) (n : BitVec 4) (px : Fin 64) (py : Fin 32) : Prop :=
  ∃ r c : Nat, r < n.toNat ∧ c < 8 ∧ (s.mem.read (s.i.toNat + r)).getLsbD (7 - c) = true ∧
    px.val = ((s.getV x).toNat % 64 + c) % 64 ∧ py.val = ((s.getV y).toNat % 32 + r) % 32

end Sys2Proof.Machine
end

