-- ==== Sys2Proof/Certificates/Slice0/Obligations.lean ====
section
/-! DEFINITION. The statements for the provers. Each docstring names the rules of spec/ it formalises; where a clause is the
spec's own decision (D<n> of spec/92_eei_decisions.md), its general knowledge (G<n> of spec/93_implementation_defined.md) or the
model's choice (assumption log), the docstring says so. -/

open Sys2Proof Sys2Proof.Machine

/-! ## Encoding -/

/-- Words written out bit by bit from R107 decode to their instructions, at least one of every family (opcode values: spec
decision D2, general knowledge G1). -/
def Obligations.WrittenOutWordsDecode : Prop :=
  decodeWord 0b0000_0001_0010_0011#16 = .instr (.sys 0x123) ∧
  decodeWord 0b0000_0000_1110_0000#16 = .instr .cls ∧
  decodeWord 0b0000_0000_1110_1110#16 = .instr .ret ∧
  decodeWord 0b0001_1010_1011_1100#16 = .instr (.jp 0xABC) ∧
  decodeWord 0b0011_0010_0001_0000#16 = .instr (.seImm 2 0x10) ∧
  decodeWord 0b0110_1010_1111_1111#16 = .instr (.ldImm 10 0xFF) ∧
  decodeWord 0b1000_0000_0001_0100#16 = .instr (.addReg 0 1) ∧
  decodeWord 0b1000_0000_0001_1110#16 = .instr (.shl 0 1) ∧
  decodeWord 0b1101_0001_0010_0101#16 = .instr (.drn 1 2 5) ∧
  decodeWord 0b1110_0101_1001_1110#16 = .instr (.skp 5) ∧
  decodeWord 0b1111_0010_0000_0111#16 = .instr (.ldVxDT 2) ∧
  decodeWord 0b1111_0001_0011_0011#16 = .instr (.ldB 1) ∧
  decodeWord 0b1000_0000_0000_1000#16 = .invalid 0x8008

/-- R101 to R107: decoding the word of a well-formed instruction gives it back, with every operand, and decoding its bytes in
memory order leaves the bytes after them (opcode values: D2). -/
def Obligations.DecodeInvertsEncode : Prop :=
  ∀ i : Instr, i.wf = true →
    decodeWord (encode i) = .instr i ∧ ∀ rest, decodeBytes (encodeBytes i ++ rest) = .ok i rest

/-- R109: two words decode to the same instruction only if they differ in bits it ignores; the encoder gives the word with the
ignored bits clear, and what decodes is well-formed (opcode values: D2). -/
def Obligations.EncodeInvertsDecode : Prop :=
  ∀ (w : Word) (i : Instr), decodeWord w = .instr i → i.wf = true ∧ encode i = w &&& usedBits i

/-- R106 and R107: a word that a row of the opcode map matches decodes to that row's instruction; a word of the 0 group that
neither `CLS` nor `RET` matches is `SYS`; any other word is `Invalid` and carries itself (opcode values: D2, D3, D4). -/
def Obligations.DecodeFollowsOpcodeMap : Prop :=
  (∀ w : Word, ∀ r ∈ opcodeMap, w &&& r.mask = r.pattern → decodeWord w = .instr (r.build w)) ∧
  (∀ w : Word, (∀ r ∈ opcodeMap, w &&& r.mask ≠ r.pattern) →
    decodeWord w = if w &&& 0xF000 = 0 then .instr (.sys (BitVec.ofNat 12 (w.toNat % 4096))) else .invalid w)

/-- The set of R108: the words that decode to `Invalid` are those of groups 8, E and F that no row names (values: D2, D4). The
counts R108 gives are not claimed here. -/
def Obligations.InvalidWordsAreThoseListed : Prop :=
  ∀ w : Word, decodeWord w = .invalid w ↔
    (w.toNat / 4096 = 0x8 ∧ (w.toNat % 16 ∈ [0x8, 0x9, 0xA, 0xB, 0xC, 0xD, 0xF])) ∨
    (w.toNat / 4096 = 0xE ∧ w.toNat % 256 ∉ [0x9E, 0xA1]) ∨
    (w.toNat / 4096 = 0xF ∧ w.toNat % 256 ∉ [0x07, 0x0A, 0x15, 0x18, 0x1E, 0x29, 0x33, 0x55, 0x65])

/-! ## The step -/

/-- R71: the instruction word at an address is the byte there times 256 plus the byte after it. -/
def Obligations.InstructionWordsAreBigEndian : Prop :=
  ∀ (m : Memory) (a : Nat), (m.readWord a).toNat = (m.read a).toNat * 256 + (m.read (a + 1)).toNat

/-- R71, R130: a running core whose two bytes at PC decode, high byte first, to an instruction executes it: the step is `exec` of
that instruction at that state, with nothing added around it. -/
def Obligations.StepRunsTheDecodedInstruction : Prop :=
  ∀ (s : State) (i : Instr), s.run = .running → s.pc.toNat + 1 ≤ 0xFFF →
    decodeBytes [s.mem.read s.pc.toNat, s.mem.read (s.pc.toNat + 1)] = .ok i [] → step s = exec i s

/-- R73, R133: a fetch outside memory raises with the first byte address out of range and no word (information: D28; that the
state is otherwise unchanged: D17). -/
def Obligations.FetchOutOfBoundsRaises : Prop :=
  ∀ s : State, s.run = .running →
    (s.pc.toNat > 0xFFF → step s = .next { s with run := .faulted (.memoryOutOfBounds s.pc.toNat none) }) ∧
    (s.pc.toNat = 0xFFF → step s = .next { s with run := .faulted (.memoryOutOfBounds 0x1000 none) })

/-- R134: an invalid word raises with its address and the word; PC does not advance and nothing else changes (D17). -/
def Obligations.InvalidWordRaises : Prop :=
  ∀ s : State, s.run = .running → s.pc.toNat + 1 ≤ 0xFFF →
    decodeWord (wordOfBytes (s.mem.read s.pc.toNat) (s.mem.read (s.pc.toNat + 1))) =
      .invalid (wordOfBytes (s.mem.read s.pc.toNat) (s.mem.read (s.pc.toNat + 1))) →
    step s = .next { s with
      run := .faulted (.invalidOpcode s.pc (wordOfBytes (s.mem.read s.pc.toNat) (s.mem.read (s.pc.toNat + 1)))) }

/-- R131, R346 (D17, D26): a faulted core changes nothing at a step and returns its condition again, and no transaction but a
successful `load` leaves the fault. That the repeated step is the outcome `fault` is the model's choice (assumption log 1). -/
def Obligations.FaultedCoreRepeatsUntilLoad : Prop :=
  ∀ (s : State) (f : Fault), s.run = .faulted f →
    step s = .fault f ∧ s.stepTransaction = (s, .fatal f) ∧
    (∀ a : Transaction, (s.perform a).1.run = .faulted f ∨
      ∃ rom, a = .load rom ∧ rom.length ≤ 3584 ∧ (s.perform a).1.run = .running)

/-- R302, R132, R303 (D16): the executing step of `LD Vx, K` samples no key and writes no register: it starts the wait. A waiting
core with no key pressed changes nothing and reports that it waits; with keys pressed it stores the least number into Vx, moves PC
past the instruction, runs again and reports `Ok`. -/
def Obligations.KeyWaitStartsThenTakesTheLeastKey : Prop :=
  ∀ (s : State) (x : RegIndex),
    exec (.ldVxK x) s = .next { s with run := .awaitingKey x } ∧
    (s.run = .awaitingKey x → (∀ k : Fin 16, s.keys[k] = false) → s.stepTransaction = (s, .waitingForKey)) ∧
    (s.run = .awaitingKey x → ∀ k : Fin 16, s.keys[k] = true → (∀ j : Fin 16, j < k → s.keys[j] = false) →
      s.stepTransaction =
        ({ s with v := s.v.set x (BitVec.ofNat 8 k.val), pc := s.pc + 2, run := .running }, .ok))

/-- R130, R131, R137: every instruction answers a next state, whatever the state; the outcome `fault` comes exactly from a core
that is already faulted (the model's choice, assumption log 1) and nothing is refused; and the result of a step is `Ok`,
`WaitingForKey` or `Fatal(E, info)` by the run state it leaves (assumption log 11). -/
def Obligations.StepAlwaysAnswersAndReportsItsResult : Prop :=
  (∀ (i : Instr) (s : State), ∃ t, exec i s = .next t) ∧
  (∀ (s : State) (f : Fault), step s = .fault f ↔ s.run = .faulted f) ∧
  (∀ (s : State) (r : Refusal), step s ≠ .refused r) ∧
  (∀ s t : State, step s = .next t →
    (t.run = .running → s.stepTransaction = (t, .ok)) ∧
    (∀ x, t.run = .awaitingKey x → s.stepTransaction = (t, .waitingForKey)) ∧
    (∀ f, t.run = .faulted f → s.stepTransaction = (t, .fatal f)))

/-- R18, R136, R344, R345 (D17): the step in which a fatal condition appears changes the run state and nothing else, PC
included. -/
def Obligations.FatalStepChangesOnlyTheRunState : Prop :=
  ∀ (s t : State) (f : Fault), step s = .next t → t.run = .faulted f →
    s.run = .running ∧ t = { s with run := .faulted f }

/-- R342: the fatal conditions an instruction raises once it is fetched and decoded are among those the table lists for it, and
an instruction the table does not list raises nothing; a step of a waiting core raises nothing. -/
def Obligations.InstructionsRaiseOnlyTheirOwnFaults : Prop :=
  (∀ (i : Instr) (s t : State) (f : Fault), s.run = .running → exec i s = .next t → t.run = .faulted f → mayRaise i f) ∧
  (∀ (s t : State) (x : RegIndex), s.run = .awaitingKey x → step s = .next t → t.safe)

/-- R341: the word a bounds fault records is the word at PC that was fetched, and its address is above 0xFFF (the model takes the
word from the instruction, assumption log 5). -/
def Obligations.BoundsFaultRecordsTheFetchedWord : Prop :=
  ∀ (s t : State) (a : Nat) (w : Word), step s = .next t → s.run = .running →
    t.run = .faulted (.memoryOutOfBounds a (some w)) →
    w = wordOfBytes (s.mem.read s.pc.toNat) (s.mem.read (s.pc.toNat + 1)) ∧ a > 0xFFF

/-- R135: the new PC of every instruction that completes without a fault, and of the step that completes a key wait. -/
def Obligations.ProgramCounterAfterEachInstruction : Prop :=
  (∀ (s t : State) (x : RegIndex), s.run = .awaitingKey x → step s = .next t → t.run = .running → t.pc = s.pc + 2) ∧
  ∀ (i : Instr) (s t : State), s.run = .running → exec i s = .next t → (∀ f, t.run ≠ .faulted f) →
    match i with
    | .jp nnn => t.pc.toNat = nnn.toNat
    | .jpV0 nnn => t.pc.toNat = nnn.toNat + (s.getV 0).toNat
    | .call nnn => t.pc.toNat = nnn.toNat
    | .ret => s.stack.getLast? = some t.pc
    | .ldVxK _ => t.pc = s.pc
    | j =>
      match skipCondition s j with
      | some c => t.pc = if c then s.pc + 4 else s.pc + 2
      | none => t.pc = s.pc + 2

/-! ## What an instruction leaves unchanged -/

/-- R32: an instruction writes no V register but the ones the table lists for it. -/
def Obligations.OnlyListedRegistersChange : Prop :=
  ∀ (i : Instr) (s t : State) (r : RegIndex), exec i s = .next t → r ∉ writtenRegs s.dialect i → t.getV r = s.getV r

/-- R32: every instruction reads only the registers its rule names: a register it does not read influences nothing but itself. -/
def Obligations.UnreadRegistersInfluenceNothing : Prop :=
  ∀ (i : Instr) (s : State) (r : RegIndex) (b : Byte), r ∉ readRegs s.dialect i →
    ∃ t u, exec i s = .next t ∧ exec i (s.setV r b) = .next u ∧ t.setV r 0 = u.setV r 0

/-- R70, R75: an instruction changes no byte of memory but the ones it stores to: none, except I, I+1, I+2 for `LD B, Vx` and
I to I+x for `LD [I], Vx`. -/
def Obligations.OnlyStoredBytesChange : Prop :=
  ∀ (i : Instr) (s t : State), exec i s = .next t →
    (∀ a, ¬ storesTo s i a → t.mem.read a = s.mem.read a) ∧
    ((∀ x, i ≠ .ldB x) → (∀ x, i ≠ .ldMemVx x) → t.mem = s.mem)

/-- R41 (who writes I), R42 ("Only `CALL` pushes and only `RET` pops"), R44 (who mutates the framebuffer): every other
instruction leaves I, the stack, the framebuffer unchanged; only `RND` draws and nothing writes the dialect. -/
def Obligations.OnlyTheirWritersChangeIndexStackAndScreen : Prop :=
  ∀ (i : Instr) (s t : State), exec i s = .next t →
    ((∀ n, i ≠ .ldI n) → (∀ x, i ≠ .addI x) → (∀ x, i ≠ .ldF x) → t.i = s.i) ∧
    ((∀ n, i ≠ .call n) → i ≠ .ret → t.stack = s.stack) ∧
    (i ≠ .cls → (∀ x y n, i ≠ .drn x y n) → t.fb = s.fb) ∧
    ((∀ x kk, i ≠ .rnd x kk) → t.draws = s.draws) ∧
    t.dialect = s.dialect

/-- R138: a step changes DT only through `LD DT, Vx` and ST only through `LD ST, Vx`, and never the keypad snapshot. -/
def Obligations.StepLeavesTimersAndKeypad : Prop :=
  ∀ s t : State, step s = .next t →
    t.keys = s.keys ∧
    (t.dt = s.dt ∨ ∃ x, s.run = .running ∧ decodeWord (s.mem.readWord s.pc.toNat) = .instr (.ldDTVx x)) ∧
    (t.st = s.st ∨ ∃ x, s.run = .running ∧ decodeWord (s.mem.readWord s.pc.toNat) = .instr (.ldSTVx x))

/-- R394 with R361: a tick of the timers and an instruction commute, for every instruction but the three that name a timer. -/
def Obligations.TicksCommuteWithOtherInstructions : Prop :=
  ∀ (i : Instr) (s t : State), (∀ x, i ≠ .ldVxDT x) → (∀ x, i ≠ .ldDTVx x) → (∀ x, i ≠ .ldSTVx x) →
    exec i s = .next t → exec i s.tickTimers = .next t.tickTimers

/-- R45, R139: the keypad snapshot influences no instruction but `SKP` and `SKNP` (`LD Vx, K` samples it only in the completing
step, D16). -/
def Obligations.KeypadInfluencesOnlyKeySkips : Prop :=
  ∀ (i : Instr) (s t : State) (k : Keypad), (∀ x, i ≠ .skp x) → (∀ x, i ≠ .sknp x) →
    exec i s = .next t → exec i (s.setKeys k) = .next (t.setKeys k)

/-! ## Loads, arithmetic, logic, shifts, random -/

/-- R150: `LD Vx, kk`. -/
def Obligations.LoadImmediateWritesByte : Prop :=
  ∀ (x : RegIndex) (kk : Byte) (s : State),
    exec (.ldImm x kk) s = .next { s with v := s.v.set x kk, pc := s.pc + 2 }

/-- R151: `ADD Vx, kk` wraps and writes no carry (D8, G4). -/
def Obligations.AddImmediateWrapsWithoutCarry : Prop :=
  ∀ (x : RegIndex) (kk : Byte) (s : State),
    exec (.addImm x kk) s =
      .next { s with v := s.v.set x (BitVec.ofNat 8 (((s.getV x).toNat + kk.toNat) % 256)), pc := s.pc + 2 }

/-- R152 to R155: register copy, OR, AND, XOR; none writes a flag (D9, G3). -/
def Obligations.CopyAndLogicWriteNoFlag : Prop :=
  ∀ (x y : RegIndex) (s : State),
    exec (.ldReg x y) s = .next { s with v := s.v.set x (s.getV y), pc := s.pc + 2 } ∧
    exec (.orReg x y) s = .next { s with v := s.v.set x (s.getV x ||| s.getV y), pc := s.pc + 2 } ∧
    exec (.andReg x y) s = .next { s with v := s.v.set x (s.getV x &&& s.getV y), pc := s.pc + 2 } ∧
    exec (.xorReg x y) s = .next { s with v := s.v.set x (s.getV x ^^^ s.getV y), pc := s.pc + 2 }

/-- R156 with R162: `ADD Vx, Vy`; the flag is written last, so it stands when x = F. -/
def Obligations.AddRegistersSetsCarry : Prop :=
  ∀ (x y : RegIndex) (s : State), ∃ t, exec (.addReg x y) s = .next t ∧ sameButRegisters s t ∧
    ∀ r, t.getV r =
      if r = 15 then (if (s.getV x).toNat + (s.getV y).toNat > 255 then 1 else 0)
      else if r = x then BitVec.ofNat 8 (((s.getV x).toNat + (s.getV y).toNat) % 256)
      else s.getV r

/-- R157 with R162: `SUB Vx, Vy`. -/
def Obligations.SubtractSetsNoBorrow : Prop :=
  ∀ (x y : RegIndex) (s : State), ∃ t, exec (.sub x y) s = .next t ∧ sameButRegisters s t ∧
    ∀ r, t.getV r =
      if r = 15 then (if (s.getV x).toNat ≥ (s.getV y).toNat then 1 else 0)
      else if r = x then BitVec.ofNat 8 (((s.getV x).toNat + 256 - (s.getV y).toNat) % 256)
      else s.getV r

/-- R159 with R162: `SUBN Vx, Vy` (operand order: G5). -/
def Obligations.ReverseSubtractSetsNoBorrow : Prop :=
  ∀ (x y : RegIndex) (s : State), ∃ t, exec (.subn x y) s = .next t ∧ sameButRegisters s t ∧
    ∀ r, t.getV r =
      if r = 15 then (if (s.getV y).toNat ≥ (s.getV x).toNat then 1 else 0)
      else if r = x then BitVec.ofNat 8 (((s.getV y).toNat + 256 - (s.getV x).toNat) % 256)
      else s.getV r

/-- R158, R160 with R162 and R163, for both values of `SHIFT_SOURCE`. -/
def Obligations.ShiftsMoveOneBitIntoVF : Prop :=
  ∀ (x y : RegIndex) (s : State) (b : Byte),
    (s.dialect.shiftSource = .vx → b = s.getV x) → (s.dialect.shiftSource = .vy → b = s.getV y) →
    (∃ t, exec (.shr x y) s = .next t ∧ sameButRegisters s t ∧
      ∀ r, t.getV r = if r = 15 then BitVec.ofNat 8 (b.toNat % 2)
        else if r = x then BitVec.ofNat 8 (b.toNat / 2) else s.getV r) ∧
    (∃ t, exec (.shl x y) s = .next t ∧ sameButRegisters s t ∧
      ∀ r, t.getV r = if r = 15 then BitVec.ofNat 8 (b.toNat / 128)
        else if r = x then BitVec.ofNat 8 (b.toNat * 2 % 256) else s.getV r)

/-- R165, R19: `RND Vx, kk` masks a fresh draw, whatever the source gives (D27). That the draw is `Config.randomByte` applied to the
counter `draws`, which goes up by 1, is the model's choice (assumption log 3). -/
def Obligations.RandomMasksAFreshDraw : Prop :=
  ∀ (x : RegIndex) (kk : Byte) (s : State), ∃ t, exec (.rnd x kk) s = .next t ∧
    t = { s with v := t.v, pc := s.pc + 2, draws := s.draws + 1 } ∧
    (∀ r, t.getV r = if r = x then Config.randomByte s.draws &&& kk else s.getV r) ∧
    (kk = 0x00 → t.getV x = 0) ∧ (kk = 0xFF → t.getV x = Config.randomByte s.draws)

/-! ## Skips -/

/-- R200 to R203: the skips on registers; no register, flag or byte of memory changes. -/
def Obligations.RegisterSkips : Prop :=
  ∀ (x y : RegIndex) (kk : Byte) (s : State),
    exec (.seImm x kk) s = .next { s with pc := if s.getV x = kk then s.pc + 4 else s.pc + 2 } ∧
    exec (.sneImm x kk) s = .next { s with pc := if s.getV x ≠ kk then s.pc + 4 else s.pc + 2 } ∧
    exec (.seReg x y) s = .next { s with pc := if s.getV x = s.getV y then s.pc + 4 else s.pc + 2 } ∧
    exec (.sneReg x y) s = .next { s with pc := if s.getV x ≠ s.getV y then s.pc + 4 else s.pc + 2 }

/-! ## Control transfer -/

/-- R220: `SYS nnn` does nothing but advance PC, whatever its operand (D3, G9). -/
def Obligations.SysOnlyAdvances : Prop :=
  ∀ (nnn : BitVec 12) (s : State), exec (.sys nnn) s = .next { s with pc := s.pc + 2 }

/-- R222, R73: `JP nnn`, and a target of 0xFFF makes the next fetch raise (its information: D28; that nothing but the run state
changes: D17). -/
def Obligations.JumpSetsPC : Prop :=
  ∀ (nnn : BitVec 12) (s : State), ∃ t, exec (.jp nnn) s = .next t ∧ t = { s with pc := t.pc } ∧
    t.pc.toNat = nnn.toNat ∧
    (s.run = .running → nnn = 0xFFF → step t = .next { t with run := .faulted (.memoryOutOfBounds 0x1000 none) })

/-- R223: `CALL nnn` with room on the stack, and with 16 entries (that a fault changes nothing else: D17). -/
def Obligations.CallPushesOrOverflows : Prop :=
  ∀ (nnn : BitVec 12) (s : State),
    (s.sp < 16 →
      exec (.call nnn) s = .next { s with stack := s.stack ++ [s.pc + 2], pc := BitVec.ofNat 16 nnn.toNat }) ∧
    (s.sp = 16 → exec (.call nnn) s = .next { s with run := .faulted (.stackOverflow s.pc 16) })

/-- R224: `RET` pops the newest entry, unchecked (D20), and an empty stack underflows (D17). -/
def Obligations.ReturnPopsOrUnderflows : Prop :=
  ∀ (s : State) (rest : List Word) (a : Word),
    (s.stack = rest ++ [a] → exec .ret s = .next { s with stack := rest, pc := a }) ∧
    (s.stack = [] → exec .ret s = .next { s with run := .faulted (.stackUnderflow s.pc 0) })

/-- The law R224's example states: after CALL from P and any steps that bring the stack back, RET restores PC to P + 2 and the
depth. Here: whatever else a subroutine changed, if it left the stack as the CALL did. -/
def Obligations.ReturnAfterCallRestoresPC : Prop :=
  ∀ (nnn : BitVec 12) (s t body : State), s.sp < 16 → exec (.call nnn) s = .next t → body.stack = t.stack →
    ∃ u, exec .ret body = .next u ∧ u = { body with pc := s.pc + 2, stack := s.stack } ∧ u.sp = s.sp

/-- R228: `JP V0, nnn`, in bounds and out of bounds; the word is the instruction's (assumption log 5). -/
def Obligations.JumpV0AddsOrRaises : Prop :=
  ∀ (nnn : BitVec 12) (s : State),
    (nnn.toNat + (s.getV 0).toNat ≤ 0xFFF →
      exec (.jpV0 nnn) s = .next { s with pc := BitVec.ofNat 16 (nnn.toNat + (s.getV 0).toNat) }) ∧
    (nnn.toNat + (s.getV 0).toNat > 0xFFF →
      exec (.jpV0 nnn) s = .next { s with
      run := .faulted (.memoryOutOfBounds (nnn.toNat + (s.getV 0).toNat) (some (encode (.jpV0 nnn)))) })

/-! ## Index register and memory -/

/-- R250: `LD I, nnn`. -/
def Obligations.LoadIndexSetsAddress : Prop :=
  ∀ (nnn : BitVec 12) (s : State),
    exec (.ldI nnn) s = .next { s with i := BitVec.ofNat 16 nnn.toNat, pc := s.pc + 2 }

/-- R252: `ADD I, Vx` for both values of `ADDI_SETS_VF` (wrap at 16 bits: D7; flag threshold: D6). -/
def Obligations.AddIndexWrapsAndMaySetVF : Prop :=
  ∀ (x : RegIndex) (s : State),
    (s.dialect.addISetsVF = false →
      exec (.addI x) s =
        .next { s with i := BitVec.ofNat 16 ((s.i.toNat + (s.getV x).toNat) % 65536), pc := s.pc + 2 }) ∧
    (s.dialect.addISetsVF = true →
      exec (.addI x) s =
        .next { s with
          i := BitVec.ofNat 16 ((s.i.toNat + (s.getV x).toNat) % 65536)
          v := s.v.set 15 (if s.i.toNat + (s.getV x).toNat > 0xFFF then 1 else 0)
          pc := s.pc + 2 })

/-- R254: `LD F, Vx` points I at the glyph of the low nibble (D12, G6). -/
def Obligations.LoadFontPointsAtGlyph : Prop :=
  ∀ (x : RegIndex) (s : State),
    exec (.ldF x) s =
      .next { s with i := BitVec.ofNat 16 (0x050 + 5 * ((s.getV x).toNat % 16)), pc := s.pc + 2 }

/-- R256: `LD B, Vx` stores the three decimal digits, hundreds first (D11, G7), and nothing else; out of bounds it raises and
stores nothing (D17). -/
def Obligations.DecimalStoreWritesThreeDigits : Prop :=
  ∀ (x : RegIndex) (s : State),
    (s.i.toNat + 2 ≤ 0xFFF → ∃ t, exec (.ldB x) s = .next t ∧ sameButMemory s t ∧
      t.mem.read s.i.toNat = BitVec.ofNat 8 ((s.getV x).toNat / 100) ∧
      t.mem.read (s.i.toNat + 1) = BitVec.ofNat 8 ((s.getV x).toNat / 10 % 10) ∧
      t.mem.read (s.i.toNat + 2) = BitVec.ofNat 8 ((s.getV x).toNat % 10) ∧
      ∀ a, ¬ storesTo s (.ldB x) a → t.mem.read a = s.mem.read a) ∧
    (s.i.toNat + 2 > 0xFFF →
      exec (.ldB x) s = .next { s with
      run := .faulted (.memoryOutOfBounds (max s.i.toNat 0x1000) (some (encode (.ldB x)))) })

/-- R258: `LD [I], Vx` stores V0 to Vx, and nothing else, I unchanged (D10, G13); out of bounds it raises and stores nothing
(D17). -/
def Obligations.RegisterStoreWritesV0ToVx : Prop :=
  ∀ (x : RegIndex) (s : State),
    (s.i.toNat + x.val ≤ 0xFFF → ∃ t, exec (.ldMemVx x) s = .next t ∧ sameButMemory s t ∧
      (∀ j : RegIndex, j ≤ x → t.mem.read (s.i.toNat + j.val) = s.getV j) ∧
      ∀ a, ¬ storesTo s (.ldMemVx x) a → t.mem.read a = s.mem.read a) ∧
    (s.i.toNat + x.val > 0xFFF →
      exec (.ldMemVx x) s = .next { s with
      run := .faulted (.memoryOutOfBounds (max s.i.toNat 0x1000) (some (encode (.ldMemVx x)))) })

/-- R260: `LD Vx, [I]` loads V0 to Vx, and nothing else, I unchanged (D10, G13); out of bounds it raises and loads nothing
(D17). -/
def Obligations.RegisterLoadReadsV0ToVx : Prop :=
  ∀ (x : RegIndex) (s : State),
    (s.i.toNat + x.val ≤ 0xFFF → ∃ t, exec (.ldVxMem x) s = .next t ∧ sameButRegisters s t ∧
      ∀ r : RegIndex, t.getV r = if r ≤ x then s.mem.read (s.i.toNat + r.val) else s.getV r) ∧
    (s.i.toNat + x.val > 0xFFF →
      exec (.ldVxMem x) s = .next { s with
      run := .faulted (.memoryOutOfBounds (max s.i.toNat 0x1000) (some (encode (.ldVxMem x)))) })

/-- R76, R258, R260: storing V0 to Vx and loading them back from the same I gives the stored values, whatever the registers held in
between (I unchanged by both: D10). -/
def Obligations.StoreThenLoadRestoresRegisters : Prop :=
  ∀ (x : RegIndex) (s t : State) (v : Vector Byte 16), s.i.toNat + x.val ≤ 0xFFF → exec (.ldMemVx x) s = .next t →
    ∃ u, exec (.ldVxMem x) { t with v := v } = .next u ∧
      ∀ r : RegIndex, u.getV r = if r ≤ x then s.getV r else v[r]

/-- R84: bytes that `LD [I], Vx` stores are the instruction word the next fetch reads there, high byte first. -/
def Obligations.StoreIsSeenByTheNextFetch : Prop :=
  ∀ (x : RegIndex) (s t : State) (j : Nat) (p : Word), s.i.toNat + x.val ≤ 0xFFF → exec (.ldMemVx x) s = .next t →
    j + 1 ≤ x.val → p.toNat = s.i.toNat + j →
    ({ t with pc := p } : State).fetch = .word (wordOfBytes (s.getV (Fin.ofNat 16 j)) (s.getV (Fin.ofNat 16 (j + 1))))

/-! ## Graphics -/

/-- R280: `CLS` turns every pixel off and changes nothing else. -/
def Obligations.ClearTurnsEveryPixelOff : Prop :=
  ∀ s : State, ∃ t, exec .cls s = .next t ∧ t = { s with fb := t.fb, pc := s.pc + 2 } ∧
    ∀ (px : Fin 64) (py : Fin 32), t.fb.get px py = false

/-- R282: `DRN` toggles exactly the pixels under the sprite's set bits, wrapping on both axes, and VF is 1 exactly if one of them
was on; no other register changes. Out of bounds it raises and draws nothing (D17). n = 0 draws nothing and clears VF (D14); bit 7
is leftmost (D15, G8). -/
def Obligations.DrawTogglesThePixelsUnderTheSprite : Prop :=
  ∀ (x y : RegIndex) (n : BitVec 4) (s : State),
    (n = 0 ∨ s.i.toNat + n.toNat ≤ 0x1000 → ∃ t, exec (.drn x y n) s = .next t ∧
      t = { s with fb := t.fb, v := t.v, pc := s.pc + 2 } ∧
      (∀ px py, underSprite s x y n px py → t.fb.get px py = !s.fb.get px py) ∧
      (∀ px py, ¬ underSprite s x y n px py → t.fb.get px py = s.fb.get px py) ∧
      ((∃ px py, s.fb.get px py = true ∧ t.fb.get px py = false) → t.getV 15 = 1) ∧
      ((∀ px py, s.fb.get px py = true → t.fb.get px py = true) → t.getV 15 = 0) ∧
      ∀ r, r ≠ 15 → t.getV r = s.getV r) ∧
    (n ≠ 0 → s.i.toNat + n.toNat > 0x1000 →
      exec (.drn x y n) s = .next { s with
      run := .faulted (.memoryOutOfBounds (max s.i.toNat 0x1000) (some (encode (.drn x y n)))) })

/-- R284: drawing the same sprite twice restores every pixel, and the second draw reports a collision exactly if some pixel under
the sprite was off before the first (neither Vx nor Vy is VF). -/
def Obligations.DoubleDrawRestoresTheScreen : Prop :=
  ∀ (x y : RegIndex) (n : BitVec 4) (s t : State), x ≠ 15 → y ≠ 15 → s.i.toNat + n.toNat ≤ 0x1000 →
    exec (.drn x y n) s = .next t →
    ∃ u, exec (.drn x y n) t = .next u ∧ u.fb = s.fb ∧
      ((∃ px py, underSprite s x y n px py ∧ s.fb.get px py = false) → u.getV 15 = 1) ∧
      ((∀ px py, underSprite s x y n px py → s.fb.get px py = true) → u.getV 15 = 0)

/-! ## Keypad and timers -/

/-- R300, R301, R304: the key skips test key Vx & 0xF (D13); nothing but PC changes. -/
def Obligations.KeySkipsTestTheLowNibble : Prop :=
  ∀ (x : RegIndex) (s : State) (k : Fin 16), k.val = (s.getV x).toNat % 16 →
    exec (.skp x) s = .next { s with pc := if s.keys[k] = true then s.pc + 4 else s.pc + 2 } ∧
    exec (.sknp x) s = .next { s with pc := if s.keys[k] = false then s.pc + 4 else s.pc + 2 }

/-- R320, R322, R324, R367: the timer instructions are transfers with no other effect; in the state right after `LD ST, Vx` the
beep is on exactly if Vx is not 0. -/
def Obligations.TimerTransfers : Prop :=
  ∀ (x : RegIndex) (s : State),
    exec (.ldVxDT x) s = .next { s with v := s.v.set x s.dt, pc := s.pc + 2 } ∧
    exec (.ldDTVx x) s = .next { s with dt := s.getV x, pc := s.pc + 2 } ∧
    exec (.ldSTVx x) s = .next { s with st := s.getV x, pc := s.pc + 2 } ∧
    (({ s with st := s.getV x, pc := s.pc + 2 } : State).shouldBeep = true ↔ s.getV x ≠ 0)

/-- R360: n ticks take n off each timer, floored at 0, and change nothing else, in every run state (D26). -/
def Obligations.TicksCountDownToZero : Prop :=
  ∀ (n : Nat) (s : State), ∃ t, runSchedule s (List.replicate n .tickTimers) = t ∧
    t.dt.toNat = s.dt.toNat - n ∧ t.st.toNat = s.st.toNat - n ∧ t = { s with dt := t.dt, st := t.st }

/-- R363, R365, R367: `set_keys` replaces the snapshot and nothing else; the two reads change nothing and give the grid and
ST > 0, in every run state (D26). -/
def Obligations.KeypadVideoAndBeep : Prop :=
  ∀ (s : State) (k : Keypad),
    s.perform (.setKeys k) = ({ s with keys := k }, .nothing) ∧
    s.perform .framebufferSnapshot = (s, .frame s.fb) ∧
    (s.perform .shouldBeep).1 = s ∧
    ((s.perform .shouldBeep).2 = .beep true ↔ s.st ≠ 0) ∧ ((s.perform .shouldBeep).2 = .beep false ↔ s.st = 0)

/-! ## Load, reset, invariant -/

/-- R382, R78: a successful `load` writes every byte of memory (the font's place: D12, its bytes: G2; zero elsewhere: D23) and every
register, and leaves the keypad (D23). The model's own: memory is in canonical form (assumption log 7), and `draws` and `dialect`
stay (assumption logs 3 and 4). -/
def Obligations.LoadInitialisesTheCore : Prop :=
  ∀ (s : State) (rom : List Byte), 0x200 + rom.length ≤ 4096 → ∃ t, s.load rom = (t, .ok) ∧
    (∀ a, a < 4096 → t.mem.read a =
      if 0x200 ≤ a ∧ a < 0x200 + rom.length then rom.getD (a - 0x200) 0
      else if 0x50 ≤ a ∧ a < 0xA0 then (font.getD ((a - 0x50) / 5) []).getD ((a - 0x50) % 5) 0
      else 0) ∧
    (∀ r, t.getV r = 0) ∧ t.i = 0 ∧ t.pc = 0x200 ∧ t.stack = [] ∧ t.dt = 0 ∧ t.st = 0 ∧
    (∀ px py, t.fb.get px py = false) ∧ t.run = .running ∧ t.keys = s.keys ∧
    t.draws = s.draws ∧ t.dialect = s.dialect ∧ t.mem.wf

/-- R383: a ROM longer than 3584 bytes fails to load and changes no state at all; one of at most 3584 bytes loads (that the error
records the length: D24). -/
def Obligations.OversizedRomFailsToLoad : Prop :=
  ∀ (s : State) (rom : List Byte),
    (rom.length > 3584 → s.load rom = (s, .loadError (.loadError rom.length))) ∧
    (rom.length ≤ 3584 → (s.load rom).2 = .ok)

/-- R55, R380 (D22): the state after `construct`, field by field, the font of R78 (G2, D12) at 0x050 to 0x09F and zero elsewhere;
it is the state a `load` of an empty ROM gives. The default dialect is D5 and D6 (assumption log 4); nothing is claimed of
`draws`. -/
def Obligations.ResetState : Prop :=
  (∀ r, State.reset.getV r = 0) ∧ State.reset.i = 0 ∧ State.reset.pc = 0x200 ∧ State.reset.stack = [] ∧
  State.reset.dt = 0 ∧ State.reset.st = 0 ∧ (∀ px py, State.reset.fb.get px py = false) ∧
  (∀ k : Fin 16, State.reset.keys[k] = false) ∧ State.reset.run = .running ∧
  State.reset.mem.readBytes 0x050 40 =
    [0xF0, 0x90, 0x90, 0x90, 0xF0, 0x20, 0x60, 0x20, 0x20, 0x70, 0xF0, 0x10, 0xF0, 0x80, 0xF0, 0xF0, 0x10, 0xF0, 0x10, 0xF0] ++
    [0x90, 0x90, 0xF0, 0x10, 0x10, 0xF0, 0x80, 0xF0, 0x10, 0xF0, 0xF0, 0x80, 0xF0, 0x90, 0xF0, 0xF0, 0x10, 0x20, 0x40, 0x40] ∧
  State.reset.mem.readBytes 0x078 40 =
    [0xF0, 0x90, 0xF0, 0x90, 0xF0, 0xF0, 0x90, 0xF0, 0x10, 0xF0, 0xF0, 0x90, 0xF0, 0x90, 0x90, 0xE0, 0x90, 0xE0, 0x90, 0xE0] ++
    [0xF0, 0x80, 0x80, 0x80, 0xF0, 0xE0, 0x90, 0x90, 0x90, 0xE0, 0xF0, 0x80, 0xF0, 0x80, 0xF0, 0xF0, 0x80, 0xF0, 0x80, 0x80] ∧
  (∀ a, a < 0x050 ∨ 0x0A0 ≤ a → State.reset.mem.read a = 0) ∧
  State.reset.load [] = (State.reset, .ok) ∧
  State.reset.dialect = { shiftSource := .vx, addISetsVF := false }

/-- The state after reset meets the invariant. -/
def Obligations.ResetMeetsTheInvariant : Prop := State.reset.Inv

/-- Every step keeps the invariant: canonical memory (log 7), R42's stack bound, R223's bound on return addresses, R36's bound on PC,
and R50's and R345's exactness of a stopped core. -/
def Obligations.StepKeepsTheInvariant : Prop :=
  ∀ s t : State, s.Inv → step s = .next t → t.Inv

/-- Every schedule of transactions keeps the invariant (R10, R361: any interleaving of `load`, `step`, `tick_timers`, `set_keys`
and the reads); its canonical memory is the model's own form (assumption log 7). -/
def Obligations.EveryScheduleKeepsTheInvariant : Prop :=
  ∀ (s : State) (schedule : List Transaction), s.Inv → (runSchedule s schedule).Inv
end

