-- ==== Sys2Proof/Laws/Decode.lean ====
section
/-! SUPPORT. The fields of R104 read back from the three encoding formats, the byte order of R71 as arithmetic, and the two bytes
of a word. -/

namespace Sys2Proof

/-! ### `op nnn` -/

@[simp] theorem opField_encodeAddress (op : BitVec 4) (nnn : BitVec 12) : opField (encodeAddress op nnn) = op := by
  apply BitVec.eq_of_getLsbD_eq
  intro j hj
  have h : ¬ 12 + j < 12 := by omega
  have h' : 12 + j < 16 := by omega
  simp [opField, encodeAddress, hj, h']

@[simp] theorem nnnField_encodeAddress (op : BitVec 4) (nnn : BitVec 12) : nnnField (encodeAddress op nnn) = nnn := by
  apply BitVec.eq_of_getLsbD_eq
  intro j hj
  have h' : j < 16 := by omega
  simp [nnnField, encodeAddress, hj, h']

@[simp] theorem kkField_encodeAddress (op : BitVec 4) (nnn : BitVec 12) :
    kkField (encodeAddress op nnn) = lowByte nnn := by
  apply BitVec.eq_of_getLsbD_eq
  intro j hj
  have h : j < 12 := by omega
  have h' : j < 16 := by omega
  simp [kkField, encodeAddress, lowByte, hj, h, h']

/-! ### `op x kk` -/

@[simp] theorem opField_encodeByte (op : BitVec 4) (x : RegIndex) (kk : Byte) : opField (encodeByte op x kk) = op := by
  apply BitVec.eq_of_getLsbD_eq
  intro j hj
  have h' : 12 + j < 16 := by omega
  simp [opField, encodeByte, hj, h', BitVec.getLsbD_of_ge (regBits x) (12 + j - 8) (by omega),
    BitVec.getLsbD_of_ge kk (12 + j) (by omega)]

@[simp] theorem xField_encodeByte (op : BitVec 4) (x : RegIndex) (kk : Byte) : xField (encodeByte op x kk) = x := by
  have : (encodeByte op x kk).extractLsb' 8 4 = regBits x := by
    apply BitVec.eq_of_getLsbD_eq
    intro j hj
    have h' : 8 + j < 16 := by omega
    have h : 8 + j < 12 := by omega
    simp [encodeByte, hj, h, h']
  simp [xField, this, regBits]

@[simp] theorem kkField_encodeByte (op : BitVec 4) (x : RegIndex) (kk : Byte) : kkField (encodeByte op x kk) = kk := by
  apply BitVec.eq_of_getLsbD_eq
  intro j hj
  have h : j < 12 := by omega
  have h' : j < 16 := by omega
  simp [kkField, encodeByte, hj, h, h']

/-! ### `op x y n` -/

@[simp] theorem opField_encodeRegs (op : BitVec 4) (x y : RegIndex) (n : BitVec 4) :
    opField (encodeRegs op x y n) = op := by
  apply BitVec.eq_of_getLsbD_eq
  intro j hj
  have h' : 12 + j < 16 := by omega
  simp [opField, encodeRegs, hj, h', BitVec.getLsbD_of_ge (regBits x) (12 + j - 8) (by omega),
    BitVec.getLsbD_of_ge (regBits y) (12 + j - 4) (by omega), BitVec.getLsbD_of_ge n (12 + j) (by omega)]

@[simp] theorem xField_encodeRegs (op : BitVec 4) (x y : RegIndex) (n : BitVec 4) : xField (encodeRegs op x y n) = x := by
  have : (encodeRegs op x y n).extractLsb' 8 4 = regBits x := by
    apply BitVec.eq_of_getLsbD_eq
    intro j hj
    have h' : 8 + j < 16 := by omega
    have h : 8 + j < 12 := by omega
    simp [encodeRegs, hj, h, h', BitVec.getLsbD_of_ge (regBits y) (8 + j - 4) (by omega),
      BitVec.getLsbD_of_ge n (8 + j) (by omega)]
  simp [xField, this, regBits]

@[simp] theorem yField_encodeRegs (op : BitVec 4) (x y : RegIndex) (n : BitVec 4) : yField (encodeRegs op x y n) = y := by
  have : (encodeRegs op x y n).extractLsb' 4 4 = regBits y := by
    apply BitVec.eq_of_getLsbD_eq
    intro j hj
    have h' : 4 + j < 16 := by omega
    have h : 4 + j < 12 := by omega
    have h1 : 4 + j < 8 := by omega
    simp [encodeRegs, hj, h, h1, h']
  simp [yField, this, regBits]

@[simp] theorem nField_encodeRegs (op : BitVec 4) (x y : RegIndex) (n : BitVec 4) : nField (encodeRegs op x y n) = n := by
  apply BitVec.eq_of_getLsbD_eq
  intro j hj
  have h : j < 12 := by omega
  have h1 : j < 8 := by omega
  have h' : j < 16 := by omega
  simp [nField, encodeRegs, hj, h, h1, h']

/-! ### A word is its fields -/

/-- A word is its `op` and `nnn` fields. -/
theorem encodeAddress_fields (w : Word) : encodeAddress (opField w) (nnnField w) = w := by
  apply BitVec.eq_of_getLsbD_eq
  intro j hj
  by_cases h : j < 12
  · simp [encodeAddress, opField, nnnField, hj, h]
  · simp [encodeAddress, opField, nnnField, hj, h, show 12 + (j - 12) = j by omega, show j - 12 < 4 by omega]

/-- A word is its `op`, `x` and `kk` fields. -/
theorem encodeByte_fields (w : Word) : encodeByte (opField w) (xField w) (kkField w) = w := by
  apply BitVec.eq_of_getLsbD_eq
  intro j hj
  have e : (regBits (xField w)) = w.extractLsb' 8 4 := rfl
  rw [encodeByte, e]
  by_cases h : j < 8
  · simp [opField, kkField, hj, h, show j < 12 by omega]
  · by_cases h2 : j < 12
    · simp [opField, kkField, hj, h, h2, show 8 + (j - 8) = j by omega, show j - 8 < 4 by omega]
    · simp [opField, kkField, hj, h, h2, show 12 + (j - 12) = j by omega, show j - 12 < 4 by omega,
        show ¬ j - 8 < 4 by omega]

/-- A word is its four nibbles. -/
theorem encodeRegs_fields (w : Word) : encodeRegs (opField w) (xField w) (yField w) (nField w) = w := by
  apply BitVec.eq_of_getLsbD_eq
  intro j hj
  have e : (regBits (xField w)) = w.extractLsb' 8 4 := rfl
  have e' : (regBits (yField w)) = w.extractLsb' 4 4 := rfl
  rw [encodeRegs, e, e']
  by_cases h : j < 4
  · simp [opField, nField, hj, h, show j < 12 by omega, show j < 8 by omega]
  · by_cases h1 : j < 8
    · simp [opField, nField, hj, h, h1, show 4 + (j - 4) = j by omega, show j - 4 < 4 by omega, show j < 12 by omega]
    · by_cases h2 : j < 12
      · simp [opField, nField, hj, h, h1, h2, show 8 + (j - 8) = j by omega, show j - 8 < 4 by omega,
          show ¬ j - 4 < 4 by omega]
      · simp [opField, nField, hj, h, h1, h2, show 12 + (j - 12) = j by omega, show j - 12 < 4 by omega,
          show ¬ j - 8 < 4 by omega, show ¬ j - 4 < 4 by omega]

/-! ### Byte order (R71) -/

/-- R71 as arithmetic: the byte at the lower address is the high byte. -/
theorem toNat_wordOfBytes (hi lo : Byte) : (wordOfBytes hi lo).toNat = hi.toNat * 256 + lo.toNat := by
  have h1 := hi.isLt
  have h2 := lo.isLt
  have h3 : hi.toNat % 65536 = hi.toNat := by omega
  have h4 : lo.toNat % 65536 = lo.toNat := by omega
  simp only [wordOfBytes, BitVec.toNat_or, BitVec.toNat_shiftLeft, BitVec.toNat_setWidth, Nat.reducePow, h3, h4,
    Nat.shiftLeft_eq]
  rw [Nat.mod_eq_of_lt (by omega), Nat.mul_comm, show (256 : Nat) = 2 ^ 8 from rfl,
    ← Nat.two_pow_add_eq_or_of_lt (by omega)]

/-- The two bytes of a word, in memory order, are the word. -/
@[simp] theorem wordOfBytes_bytes (w : Word) : wordOfBytes (highByte w) (lowByteOfWord w) = w := by
  apply BitVec.eq_of_toNat_eq
  rw [toNat_wordOfBytes]
  have := w.isLt
  simp [highByte, lowByteOfWord, Nat.shiftRight_eq_div_pow]
  omega

end Sys2Proof
end

