-- ==== Sys2Proof/Laws/Draw.lean ====
section
/-! SUPPORT. What a draw does to the framebuffer (R282): the pixels it plots, that no pixel is plotted twice, and what each pixel
and the collision flag are afterwards. -/

namespace Sys2Proof.Machine

/-! ### One pixel -/

@[simp] theorem Framebuffer.get_off (px : Fin 64) (py : Fin 32) : Framebuffer.off.get px py = false := by
  simp [Framebuffer.get, Framebuffer.off]

theorem Framebuffer.ext (f g : Framebuffer) (h : ∀ px py, f.get px py = g.get px py) : f = g := by
  apply Vector.ext
  intro y hy
  apply Vector.ext
  intro x hx
  exact h ⟨x, hx⟩ ⟨y, hy⟩

theorem Framebuffer.get_toggle (fb : Framebuffer) (px qx : Fin 64) (py qy : Fin 32) :
    (fb.toggle px py).get qx qy = if qx = px ∧ qy = py then !fb.get px py else fb.get qx qy := by
  unfold Framebuffer.toggle Framebuffer.get
  by_cases hy : qy = py
  · subst hy
    by_cases hx : qx = px
    · subst hx; simp
    · have : px.val ≠ qx.val := fun e => hx (Fin.ext e.symm)
      simp [hx, Vector.getElem_set_ne, this]
  · have : py.val ≠ qy.val := fun e => hy (Fin.ext e.symm)
    simp [hy, Vector.getElem_set_ne, this]

/-! ### A list of pixels -/

/-- Plot each pixel of a list in order. -/
def Canvas.plotAll (k : Canvas) (l : List (Fin 64 × Fin 32)) : Canvas := l.foldl (fun k p => k.plot true p.1 p.2) k

/-- Pixels of a list without repeats: each is toggled, every other one stays, and the draw hits exactly if one of them was on. -/
theorem Canvas.plotAll_spec (k : Canvas) (l : List (Fin 64 × Fin 32)) (h : l.Nodup) :
    (∀ qx qy, (k.plotAll l).fb.get qx qy = (k.fb.get qx qy ^^ decide ((qx, qy) ∈ l))) ∧
    (k.plotAll l).hit = (k.hit || l.any fun p => k.fb.get p.1 p.2) := by
  induction l generalizing k with
  | nil => simp [Canvas.plotAll]
  | cons p rest ih =>
    obtain ⟨hp, hr⟩ := List.nodup_cons.mp h
    obtain ⟨hget, hhit⟩ := ih (k.plot true p.1 p.2) hr
    have e : k.plotAll (p :: rest) = (k.plot true p.1 p.2).plotAll rest := rfl
    rw [e]
    constructor
    · intro qx qy
      rw [hget]
      simp only [Canvas.plot, if_true, Framebuffer.get_toggle]
      by_cases hq : qx = p.1 ∧ qy = p.2
      · obtain ⟨rfl, rfl⟩ := hq
        simp [hp]
      · have : (qx, qy) ≠ p := fun e => hq (by rw [← e]; simp)
        simp [hq, this]
    · rw [hhit]
      have hsame : (rest.any fun q => (k.plot true p.1 p.2).fb.get q.1 q.2) = rest.any fun q => k.fb.get q.1 q.2 := by
        rw [Bool.eq_iff_iff, List.any_eq_true, List.any_eq_true]
        refine exists_congr fun q => and_congr_right fun hq => ?_
        have : ¬ (q.1 = p.1 ∧ q.2 = p.2) := fun e => hp (by rwa [← Prod.ext e.1 e.2])
        simp [Canvas.plot, Framebuffer.get_toggle, this]
      rw [hsame]
      simp [Canvas.plot, Bool.or_assoc]

/-! ### The pixels of a sprite -/

/-- The pixels of one sprite row. -/
def rowPixels (x0 py : Nat) (row : Byte) : List (Fin 64 × Fin 32) :=
  ((List.range 8).filter (spriteBit row)).map fun c => (Fin.ofNat 64 (x0 + c), Fin.ofNat 32 py)

/-- The pixels of a sprite, row by row. -/
def spritePixels (x0 py : Nat) : List Byte → List (Fin 64 × Fin 32)
  | [] => []
  | row :: rest => rowPixels x0 py row ++ spritePixels x0 (py + 1) rest

theorem Canvas.plotRow_eq (k : Canvas) (x0 py : Nat) (row : Byte) :
    k.plotRow x0 py row = k.plotAll (rowPixels x0 py row) := by
  unfold Canvas.plotRow Canvas.plotAll rowPixels
  rw [List.foldl_map, List.foldl_filter]
  rfl

theorem Canvas.plotRows_eq (k : Canvas) (x0 py : Nat) (rows : List Byte) :
    k.plotRows x0 py rows = k.plotAll (spritePixels x0 py rows) := by
  induction rows generalizing k py with
  | nil => rfl
  | cons row rest ih =>
    simp only [Canvas.plotRows, spritePixels, ih, Canvas.plotRow_eq, Canvas.plotAll, List.foldl_append]

theorem mem_rowPixels (x0 py : Nat) (row : Byte) (q : Fin 64 × Fin 32) :
    q ∈ rowPixels x0 py row ↔
      ∃ c, c < 8 ∧ spriteBit row c = true ∧ q.1.val = (x0 + c) % 64 ∧ q.2.val = py % 32 := by
  simp only [rowPixels, List.mem_map, List.mem_filter, List.mem_range]
  constructor
  · rintro ⟨c, ⟨h1, h2⟩, rfl⟩
    exact ⟨c, h1, h2, by simp, by simp⟩
  · rintro ⟨c, h1, h2, h3, h4⟩
    exact ⟨c, ⟨h1, h2⟩, Prod.ext (Fin.ext (by simp [h3])) (Fin.ext (by simp [h4]))⟩

/-- A pixel is plotted exactly if it lies under a set bit of some row. -/
theorem mem_spritePixels (x0 py : Nat) (rows : List Byte) (q : Fin 64 × Fin 32) :
    q ∈ spritePixels x0 py rows ↔
      ∃ r c, r < rows.length ∧ c < 8 ∧ spriteBit (rows.getD r 0) c = true ∧
        q.1.val = (x0 + c) % 64 ∧ q.2.val = (py + r) % 32 := by
  induction rows generalizing py with
  | nil => simp [spritePixels]
  | cons row rest ih =>
    simp only [spritePixels, List.mem_append, mem_rowPixels, ih]
    constructor
    · rintro (⟨c, h1, h2, h3, h4⟩ | ⟨r, c, h0, h1, h2, h3, h4⟩)
      · exact ⟨0, c, by simp, h1, by simpa using h2, h3, by simpa using h4⟩
      · exact ⟨r + 1, c, by simpa using h0, h1, by simpa using h2, h3, by rw [h4]; congr 1; omega⟩
    · rintro ⟨r, c, h0, h1, h2, h3, h4⟩
      cases r with
      | zero => exact .inl ⟨c, h1, by simpa using h2, h3, by simpa using h4⟩
      | succ r => exact .inr ⟨r, c, by simpa using h0, h1, by simpa using h2, h3, by rw [h4]; congr 1; omega⟩

theorem rowPixels_nodup (x0 py : Nat) (row : Byte) : (rowPixels x0 py row).Nodup := by
  unfold rowPixels
  refine List.Nodup.map_on ?_ (List.nodup_range.filter _)
  intro a ha b hb e
  have ha := List.mem_range.mp (List.mem_filter.mp ha).1
  have hb := List.mem_range.mp (List.mem_filter.mp hb).1
  have e := congrArg (fun p : Fin 64 × Fin 32 => p.1.val) e
  simp at e
  omega

/-- No pixel is plotted twice by a sprite of at most 32 rows. -/
theorem spritePixels_nodup (x0 py : Nat) (rows : List Byte) (h : rows.length ≤ 32) : (spritePixels x0 py rows).Nodup := by
  induction rows generalizing py with
  | nil => simp [spritePixels]
  | cons row rest ih =>
    simp only [List.length_cons] at h
    refine List.nodup_append.mpr ⟨rowPixels_nodup x0 py row, ih (py + 1) (by omega), ?_⟩
    rintro a ha b hb rfl
    obtain ⟨c, -, -, -, h1⟩ := (mem_rowPixels ..).mp ha
    obtain ⟨r, c', hr, -, -, -, h2⟩ := (mem_spritePixels ..).mp hb
    omega

/-- A draw of at most 32 rows: each pixel under a set bit is toggled, every other pixel stays, and the draw hits exactly if a
pixel under a set bit was on. -/
theorem Canvas.plotRows_spec (k : Canvas) (x0 py : Nat) (rows : List Byte) (h : rows.length ≤ 32) :
    (∀ qx qy, (k.plotRows x0 py rows).fb.get qx qy = (k.fb.get qx qy ^^ decide ((qx, qy) ∈ spritePixels x0 py rows))) ∧
    (k.plotRows x0 py rows).hit = (k.hit || (spritePixels x0 py rows).any fun p => k.fb.get p.1 p.2) := by
  rw [Canvas.plotRows_eq]
  exact Canvas.plotAll_spec k _ (spritePixels_nodup x0 py rows h)

end Sys2Proof.Machine
end

