-- ==== Sys2Proof/Laws/Memory.lean ====
section
/-! SUPPORT. The laws of memory: what a read gives after a write, and that every operation keeps the canonical form. -/

namespace Sys2Proof.Machine

/-! ### Reading -/

@[simp] theorem Memory.read_initial (a : Nat) : Memory.initial.read a = resetByte a := rfl

/-- An address below every listed one reads the reset contents. -/
theorem Memory.read_of_lt (m : Memory) (a : Nat) (h : ∀ c ∈ m, a < c.1) : m.read a = resetByte a := by
  induction m with
  | nil => rfl
  | cons c rest ih =>
    have hc := h c (by simp)
    simp only [Memory.read]
    rw [if_neg (by omega)]
    exact ih fun d hd => h d (by simp [hd])

/-- A listed byte is the byte read at its address. -/
theorem Memory.read_of_mem (m : Memory) (h : m.wf) {a : Nat} {b : Byte} (hm : (a, b) ∈ m) : m.read a = b := by
  induction m with
  | nil => simp at hm
  | cons c rest ih =>
    obtain ⟨k, d⟩ := c
    have hp := List.pairwise_cons.mp h.1
    simp only [Memory.read]
    rcases List.mem_cons.mp hm with e | hr
    · cases e; simp
    · have := hp.1 _ hr
      rw [if_neg (by simp at this; omega)]
      exact ih ⟨hp.2, fun c hc => h.2 c (by simp [hc])⟩ hr

theorem Memory.read_insert (m : Memory) (a : Nat) (b : Byte) (k : Nat) :
    (Memory.insert a b m).read k = if k = a then b else m.read k := by
  induction m with
  | nil => simp [Memory.insert, Memory.read, eq_comm]
  | cons c rest ih =>
    obtain ⟨j, d⟩ := c
    simp only [Memory.insert]
    split
    · by_cases e : k = a
      · simp [Memory.read, e]
      · simp [Memory.read, e, Ne.symm e]
    · next hlt =>
      split
      · next he =>
        subst he
        by_cases e : k = a
        · simp [Memory.read, e]
        · simp [Memory.read, e, Ne.symm e]
      · next hne =>
        simp only [Memory.read, ih]
        by_cases e : j = k
        · subst e; simp [Ne.symm hne]
        · simp [e]

theorem Memory.read_erase (m : Memory) (a k : Nat) :
    (Memory.erase a m).read k = if k = a then resetByte a else m.read k := by
  induction m with
  | nil => by_cases e : k = a <;> simp [Memory.erase, Memory.read, e]
  | cons c rest ih =>
    obtain ⟨j, d⟩ := c
    simp only [Memory.erase] at ih
    by_cases hj : j = a
    · subst hj
      by_cases e : k = j
      · subst e; simpa [Memory.erase] using ih
      · simp [Memory.erase, Memory.read, ih, e, Ne.symm e]
    · by_cases e : j = k
      · subst e; simp [Memory.erase, Memory.read, hj]
      · simp [Memory.erase, Memory.read, hj, e, ih]

/-- Read after write (R76, R81): the written byte at its address, the old byte everywhere else. -/
theorem Memory.read_write (m : Memory) (a k : Nat) (b : Byte) (ha : a < 4096) :
    (m.write a b).read k = if k = a then b else m.read k := by
  unfold Memory.write
  rw [if_pos ha]
  split
  · next e => rw [Memory.read_erase m, e]
  · exact Memory.read_insert m a b k

/-- No write reaches past the 4096 bytes. -/
theorem Memory.write_outside (m : Memory) (a : Nat) (b : Byte) (ha : 4096 ≤ a) : m.write a b = m := by
  unfold Memory.write
  rw [if_neg (by simp only [Config.memSize]; omega)]

/-- A write leaves every other byte as it was. -/
theorem Memory.read_write_ne (m : Memory) (a k : Nat) (b : Byte) (hk : k ≠ a) :
    (m.write a b).read k = m.read k := by
  by_cases ha : a < 4096
  · rw [Memory.read_write m a k b ha, if_neg hk]
  · rw [Memory.write_outside m a b (by omega)]

/-! ### The canonical form -/

theorem Memory.initial_wf : Memory.wf Memory.initial := by simp [Memory.initial, Memory.wf]

theorem Memory.mem_erase {m : Memory} {a : Nat} {c : Host.Cell} (h : c ∈ Memory.erase a m) : c ∈ m :=
  (List.mem_filter.mp h).1

theorem Memory.mem_insert {m : Memory} {a : Nat} {b : Byte} {c : Host.Cell} (h : c ∈ Memory.insert a b m) :
    c = (a, b) ∨ c ∈ m := by
  induction m with
  | nil => simpa [Memory.insert] using h
  | cons d rest ih =>
    obtain ⟨j, e⟩ := d
    simp only [Memory.insert] at h
    split at h
    · simpa using h
    · split at h
      · rcases List.mem_cons.mp h with h | h <;> simp [h]
      · rcases List.mem_cons.mp h with h | h
        · simp [h]
        · rcases ih h with h | h <;> simp [h]

theorem Memory.erase_wf (m : Memory) (h : m.wf) (a : Nat) : (Memory.erase a m).wf :=
  ⟨h.1.filter _, fun c hc => h.2 c (Memory.mem_erase hc)⟩

theorem Memory.insert_wf (m : Memory) (h : m.wf) (a : Nat) (b : Byte) (ha : a < 4096) (hb : b ≠ resetByte a) :
    (Memory.insert a b m).wf := by
  refine ⟨?_, fun c hc => ?_⟩
  · have hp := h.1
    clear h
    induction m with
    | nil => simp [Memory.insert]
    | cons d rest ih =>
      obtain ⟨j, e⟩ := d
      have hp' := List.pairwise_cons.mp hp
      simp only [Memory.insert]
      split
      · next hlt =>
        refine List.pairwise_cons.mpr ⟨fun c hc => ?_, hp⟩
        rcases List.mem_cons.mp hc with hc | hc
        · simpa [hc] using hlt
        · exact Nat.lt_trans hlt (hp'.1 c hc)
      · split
        · next he =>
          subst he
          exact List.pairwise_cons.mpr ⟨hp'.1, hp'.2⟩
        · next hlt hne =>
          refine List.pairwise_cons.mpr ⟨fun c hc => ?_, ih hp'.2⟩
          rcases Memory.mem_insert hc with hc | hc
          · simp [hc]; omega
          · exact hp'.1 c hc
  · rcases Memory.mem_insert hc with hc | hc
    · simpa [hc] using ⟨ha, hb⟩
    · exact h.2 c hc

/-- A write keeps the canonical form. -/
theorem Memory.write_wf (m : Memory) (h : m.wf) (a : Nat) (b : Byte) : (m.write a b).wf := by
  unfold Memory.write
  split
  · next ha =>
    split
    · exact Memory.erase_wf m h a
    · next hb => exact Memory.insert_wf m h a b ha hb
  · exact h

/-- A transfer keeps the canonical form. -/
theorem Memory.writeBytes_wf (m : Memory) (h : m.wf) (base : Nat) (bytes : List Byte) : (m.writeBytes base bytes).wf := by
  induction bytes generalizing m base with
  | nil => exact h
  | cons b rest ih => exact ih _ (Memory.write_wf m h base b) _

/-- Storing a word keeps the canonical form. -/
theorem Memory.writeWord_wf (m : Memory) (h : m.wf) (a : Nat) (w : Word) : (m.writeWord a w).wf :=
  Memory.writeBytes_wf m h a _

/-- A byte that is not listed reads the reset contents. -/
theorem Memory.read_of_not_mem (m : Memory) (h : m.wf) (a : Nat) (hn : (a, m.read a) ∉ m) : m.read a = resetByte a := by
  by_cases hb : ∃ b, (a, b) ∈ m
  · obtain ⟨b, hb⟩ := hb
    rw [Memory.read_of_mem m h hb] at hn
    exact absurd hb hn
  · clear hn
    induction m with
    | nil => rfl
    | cons c rest ih =>
      obtain ⟨k, b⟩ := c
      have hp := List.pairwise_cons.mp h.1
      simp only [Memory.read]
      rw [if_neg (by rintro rfl; exact hb ⟨b, by simp⟩)]
      exact ih ⟨hp.2, fun c hc => h.2 c (by simp [hc])⟩ fun ⟨b', hb'⟩ => hb ⟨b', by simp [hb']⟩

/-- What is listed is decided by what is read. -/
theorem Memory.subset_of_read_eq (m k : Memory) (hm : m.wf) (hk : k.wf) (h : ∀ a, a < 4096 → m.read a = k.read a) :
    ∀ c ∈ m, c ∈ k := by
  intro c hc
  have h1 := Memory.read_of_mem m hm (a := c.1) (b := c.2) hc
  have h2 := hm.2 c hc
  by_contra hn
  have h3 := Memory.read_of_not_mem k hk c.1 (by rw [← h c.1 h2.1, h1]; exact hn)
  rw [← h c.1 h2.1, h1] at h3
  exact h2.2 h3

/-- Equal memories are equal data: two canonical memories that read alike at the 4096 addresses are the same list. -/
theorem Memory.eq_of_read_eq (m k : Memory) (hm : m.wf) (hk : k.wf) (h : ∀ a, a < 4096 → m.read a = k.read a) : m = k := by
  have e : m.Perm k := by
    rw [List.perm_ext_iff_of_nodup]
    · exact fun c => ⟨Memory.subset_of_read_eq m k hm hk h c,
        Memory.subset_of_read_eq k m hk hm (fun a ha => (h a ha).symm) c⟩
    · exact hm.1.imp fun h e => by subst e; omega
    · exact hk.1.imp fun h e => by subst e; omega
  exact e.eq_of_pairwise (fun a b _ _ h1 h2 => by omega) hm.1 hk.1

/-! ### Transfers -/

/-- What a read gives after a transfer inside the 4096 bytes: the transferred byte inside, the old byte outside. -/
theorem Memory.read_writeBytes (m : Memory) (base : Nat) (bytes : List Byte) (k : Nat)
    (hb : base + bytes.length ≤ 4096) :
    (m.writeBytes base bytes).read k =
      if base ≤ k ∧ k < base + bytes.length then bytes.getD (k - base) 0 else m.read k := by
  induction bytes generalizing m base with
  | nil => simp [Memory.writeBytes]
  | cons b rest ih =>
    simp only [List.length_cons] at hb
    simp only [Memory.writeBytes]
    rw [ih _ _ (by omega)]
    by_cases h1 : base + 1 ≤ k ∧ k < base + 1 + rest.length
    · rw [if_pos h1, if_pos (by simp; omega), show k - base = (k - (base + 1)) + 1 by omega]
      simp
    · rw [if_neg h1, Memory.read_write m base k b (by omega)]
      by_cases h2 : k = base
      · subst h2; simp
      · rw [if_neg h2, if_neg (by simp; omega)]

/-- A byte outside a transfer is unchanged, whatever the transfer. -/
theorem Memory.read_writeBytes_outside (m : Memory) (base : Nat) (bytes : List Byte) (k : Nat)
    (hk : ¬ (base ≤ k ∧ k < base + bytes.length)) : (m.writeBytes base bytes).read k = m.read k := by
  induction bytes generalizing m base with
  | nil => rfl
  | cons b rest ih =>
    simp only [List.length_cons] at hk
    simp only [Memory.writeBytes]
    rw [ih _ _ (by omega), Memory.read_write_ne m base k b (by omega)]

theorem Memory.length_readBytes (m : Memory) (base count : Nat) : (m.readBytes base count).length = count := by
  simp [Memory.readBytes]

theorem Memory.getElem_readBytes (m : Memory) (base count j : Nat) (h : j < (m.readBytes base count).length) :
    (m.readBytes base count)[j] = m.read (base + j) := by
  simp [Memory.readBytes]

end Sys2Proof.Machine
end

