-- ==== Sys2Proof/Laws/State.lean ====
section
/-! SUPPORT. One lemma per field per state update, true by rfl, so that no later proof unfolds a record update; and what the
register accessor reads after each register write. -/

namespace Sys2Proof.Machine

/-! ### `State.setV` -/

@[simp] theorem State.setV_v (s : State) (x : RegIndex) (b : Byte) : (s.setV x b).v = s.v.set x b := rfl
@[simp] theorem State.setV_i (s : State) (x : RegIndex) (b : Byte) : (s.setV x b).i = s.i := rfl
@[simp] theorem State.setV_pc (s : State) (x : RegIndex) (b : Byte) : (s.setV x b).pc = s.pc := rfl
@[simp] theorem State.setV_stack (s : State) (x : RegIndex) (b : Byte) : (s.setV x b).stack = s.stack := rfl
@[simp] theorem State.setV_dt (s : State) (x : RegIndex) (b : Byte) : (s.setV x b).dt = s.dt := rfl
@[simp] theorem State.setV_st (s : State) (x : RegIndex) (b : Byte) : (s.setV x b).st = s.st := rfl
@[simp] theorem State.setV_fb (s : State) (x : RegIndex) (b : Byte) : (s.setV x b).fb = s.fb := rfl
@[simp] theorem State.setV_keys (s : State) (x : RegIndex) (b : Byte) : (s.setV x b).keys = s.keys := rfl
@[simp] theorem State.setV_mem (s : State) (x : RegIndex) (b : Byte) : (s.setV x b).mem = s.mem := rfl
@[simp] theorem State.setV_run (s : State) (x : RegIndex) (b : Byte) : (s.setV x b).run = s.run := rfl
@[simp] theorem State.setV_draws (s : State) (x : RegIndex) (b : Byte) : (s.setV x b).draws = s.draws := rfl
@[simp] theorem State.setV_dialect (s : State) (x : RegIndex) (b : Byte) : (s.setV x b).dialect = s.dialect := rfl

/-! ### `State.setFlag` -/

@[simp] theorem State.setFlag_v (s : State) (b : Byte) : (s.setFlag b).v = s.v.set 15 b := rfl
@[simp] theorem State.setFlag_i (s : State) (b : Byte) : (s.setFlag b).i = s.i := rfl
@[simp] theorem State.setFlag_pc (s : State) (b : Byte) : (s.setFlag b).pc = s.pc := rfl
@[simp] theorem State.setFlag_stack (s : State) (b : Byte) : (s.setFlag b).stack = s.stack := rfl
@[simp] theorem State.setFlag_dt (s : State) (b : Byte) : (s.setFlag b).dt = s.dt := rfl
@[simp] theorem State.setFlag_st (s : State) (b : Byte) : (s.setFlag b).st = s.st := rfl
@[simp] theorem State.setFlag_fb (s : State) (b : Byte) : (s.setFlag b).fb = s.fb := rfl
@[simp] theorem State.setFlag_keys (s : State) (b : Byte) : (s.setFlag b).keys = s.keys := rfl
@[simp] theorem State.setFlag_mem (s : State) (b : Byte) : (s.setFlag b).mem = s.mem := rfl
@[simp] theorem State.setFlag_run (s : State) (b : Byte) : (s.setFlag b).run = s.run := rfl
@[simp] theorem State.setFlag_draws (s : State) (b : Byte) : (s.setFlag b).draws = s.draws := rfl
@[simp] theorem State.setFlag_dialect (s : State) (b : Byte) : (s.setFlag b).dialect = s.dialect := rfl

/-! ### `State.setRegistersUpTo` -/

@[simp] theorem State.setRegistersUpTo_v (s : State) (x : RegIndex) (f : Nat → Byte) : (s.setRegistersUpTo x f).v = Vector.ofFn fun j => if j ≤ x then f j.val else s.v[j] := rfl
@[simp] theorem State.setRegistersUpTo_i (s : State) (x : RegIndex) (f : Nat → Byte) : (s.setRegistersUpTo x f).i = s.i := rfl
@[simp] theorem State.setRegistersUpTo_pc (s : State) (x : RegIndex) (f : Nat → Byte) : (s.setRegistersUpTo x f).pc = s.pc := rfl
@[simp] theorem State.setRegistersUpTo_stack (s : State) (x : RegIndex) (f : Nat → Byte) : (s.setRegistersUpTo x f).stack = s.stack := rfl
@[simp] theorem State.setRegistersUpTo_dt (s : State) (x : RegIndex) (f : Nat → Byte) : (s.setRegistersUpTo x f).dt = s.dt := rfl
@[simp] theorem State.setRegistersUpTo_st (s : State) (x : RegIndex) (f : Nat → Byte) : (s.setRegistersUpTo x f).st = s.st := rfl
@[simp] theorem State.setRegistersUpTo_fb (s : State) (x : RegIndex) (f : Nat → Byte) : (s.setRegistersUpTo x f).fb = s.fb := rfl
@[simp] theorem State.setRegistersUpTo_keys (s : State) (x : RegIndex) (f : Nat → Byte) : (s.setRegistersUpTo x f).keys = s.keys := rfl
@[simp] theorem State.setRegistersUpTo_mem (s : State) (x : RegIndex) (f : Nat → Byte) : (s.setRegistersUpTo x f).mem = s.mem := rfl
@[simp] theorem State.setRegistersUpTo_run (s : State) (x : RegIndex) (f : Nat → Byte) : (s.setRegistersUpTo x f).run = s.run := rfl
@[simp] theorem State.setRegistersUpTo_draws (s : State) (x : RegIndex) (f : Nat → Byte) : (s.setRegistersUpTo x f).draws = s.draws := rfl
@[simp] theorem State.setRegistersUpTo_dialect (s : State) (x : RegIndex) (f : Nat → Byte) : (s.setRegistersUpTo x f).dialect = s.dialect := rfl

/-! ### `State.advance` -/

@[simp] theorem State.advance_v (s : State) : s.advance.v = s.v := rfl
@[simp] theorem State.advance_i (s : State) : s.advance.i = s.i := rfl
@[simp] theorem State.advance_pc (s : State) : s.advance.pc = s.pc + 2 := rfl
@[simp] theorem State.advance_stack (s : State) : s.advance.stack = s.stack := rfl
@[simp] theorem State.advance_dt (s : State) : s.advance.dt = s.dt := rfl
@[simp] theorem State.advance_st (s : State) : s.advance.st = s.st := rfl
@[simp] theorem State.advance_fb (s : State) : s.advance.fb = s.fb := rfl
@[simp] theorem State.advance_keys (s : State) : s.advance.keys = s.keys := rfl
@[simp] theorem State.advance_mem (s : State) : s.advance.mem = s.mem := rfl
@[simp] theorem State.advance_run (s : State) : s.advance.run = s.run := rfl
@[simp] theorem State.advance_draws (s : State) : s.advance.draws = s.draws := rfl
@[simp] theorem State.advance_dialect (s : State) : s.advance.dialect = s.dialect := rfl

/-! ### `State.skipIf` -/

@[simp] theorem State.skipIf_v (s : State) (c : Bool) : (s.skipIf c).v = s.v := rfl
@[simp] theorem State.skipIf_i (s : State) (c : Bool) : (s.skipIf c).i = s.i := rfl
@[simp] theorem State.skipIf_pc (s : State) (c : Bool) : (s.skipIf c).pc = if c then s.pc + 4 else s.pc + 2 := rfl
@[simp] theorem State.skipIf_stack (s : State) (c : Bool) : (s.skipIf c).stack = s.stack := rfl
@[simp] theorem State.skipIf_dt (s : State) (c : Bool) : (s.skipIf c).dt = s.dt := rfl
@[simp] theorem State.skipIf_st (s : State) (c : Bool) : (s.skipIf c).st = s.st := rfl
@[simp] theorem State.skipIf_fb (s : State) (c : Bool) : (s.skipIf c).fb = s.fb := rfl
@[simp] theorem State.skipIf_keys (s : State) (c : Bool) : (s.skipIf c).keys = s.keys := rfl
@[simp] theorem State.skipIf_mem (s : State) (c : Bool) : (s.skipIf c).mem = s.mem := rfl
@[simp] theorem State.skipIf_run (s : State) (c : Bool) : (s.skipIf c).run = s.run := rfl
@[simp] theorem State.skipIf_draws (s : State) (c : Bool) : (s.skipIf c).draws = s.draws := rfl
@[simp] theorem State.skipIf_dialect (s : State) (c : Bool) : (s.skipIf c).dialect = s.dialect := rfl

/-! ### `State.raise` -/

@[simp] theorem State.raise_v (s : State) (f : Fault) : (s.raise f).v = s.v := rfl
@[simp] theorem State.raise_i (s : State) (f : Fault) : (s.raise f).i = s.i := rfl
@[simp] theorem State.raise_pc (s : State) (f : Fault) : (s.raise f).pc = s.pc := rfl
@[simp] theorem State.raise_stack (s : State) (f : Fault) : (s.raise f).stack = s.stack := rfl
@[simp] theorem State.raise_dt (s : State) (f : Fault) : (s.raise f).dt = s.dt := rfl
@[simp] theorem State.raise_st (s : State) (f : Fault) : (s.raise f).st = s.st := rfl
@[simp] theorem State.raise_fb (s : State) (f : Fault) : (s.raise f).fb = s.fb := rfl
@[simp] theorem State.raise_keys (s : State) (f : Fault) : (s.raise f).keys = s.keys := rfl
@[simp] theorem State.raise_mem (s : State) (f : Fault) : (s.raise f).mem = s.mem := rfl
@[simp] theorem State.raise_run (s : State) (f : Fault) : (s.raise f).run = .faulted f := rfl
@[simp] theorem State.raise_draws (s : State) (f : Fault) : (s.raise f).draws = s.draws := rfl
@[simp] theorem State.raise_dialect (s : State) (f : Fault) : (s.raise f).dialect = s.dialect := rfl

/-! ### `State.push` -/

@[simp] theorem State.push_v (s : State) (a : Word) : (s.push a).v = s.v := rfl
@[simp] theorem State.push_i (s : State) (a : Word) : (s.push a).i = s.i := rfl
@[simp] theorem State.push_pc (s : State) (a : Word) : (s.push a).pc = s.pc := rfl
@[simp] theorem State.push_stack (s : State) (a : Word) : (s.push a).stack = s.stack ++ [a] := rfl
@[simp] theorem State.push_dt (s : State) (a : Word) : (s.push a).dt = s.dt := rfl
@[simp] theorem State.push_st (s : State) (a : Word) : (s.push a).st = s.st := rfl
@[simp] theorem State.push_fb (s : State) (a : Word) : (s.push a).fb = s.fb := rfl
@[simp] theorem State.push_keys (s : State) (a : Word) : (s.push a).keys = s.keys := rfl
@[simp] theorem State.push_mem (s : State) (a : Word) : (s.push a).mem = s.mem := rfl
@[simp] theorem State.push_run (s : State) (a : Word) : (s.push a).run = s.run := rfl
@[simp] theorem State.push_draws (s : State) (a : Word) : (s.push a).draws = s.draws := rfl
@[simp] theorem State.push_dialect (s : State) (a : Word) : (s.push a).dialect = s.dialect := rfl

/-! ### `State.drop` -/

@[simp] theorem State.drop_v (s : State) : s.drop.v = s.v := rfl
@[simp] theorem State.drop_i (s : State) : s.drop.i = s.i := rfl
@[simp] theorem State.drop_pc (s : State) : s.drop.pc = s.pc := rfl
@[simp] theorem State.drop_stack (s : State) : s.drop.stack = s.stack.dropLast := rfl
@[simp] theorem State.drop_dt (s : State) : s.drop.dt = s.dt := rfl
@[simp] theorem State.drop_st (s : State) : s.drop.st = s.st := rfl
@[simp] theorem State.drop_fb (s : State) : s.drop.fb = s.fb := rfl
@[simp] theorem State.drop_keys (s : State) : s.drop.keys = s.keys := rfl
@[simp] theorem State.drop_mem (s : State) : s.drop.mem = s.mem := rfl
@[simp] theorem State.drop_run (s : State) : s.drop.run = s.run := rfl
@[simp] theorem State.drop_draws (s : State) : s.drop.draws = s.draws := rfl
@[simp] theorem State.drop_dialect (s : State) : s.drop.dialect = s.dialect := rfl

/-! ### `State.countDraw` -/

@[simp] theorem State.countDraw_v (s : State) : s.countDraw.v = s.v := rfl
@[simp] theorem State.countDraw_i (s : State) : s.countDraw.i = s.i := rfl
@[simp] theorem State.countDraw_pc (s : State) : s.countDraw.pc = s.pc := rfl
@[simp] theorem State.countDraw_stack (s : State) : s.countDraw.stack = s.stack := rfl
@[simp] theorem State.countDraw_dt (s : State) : s.countDraw.dt = s.dt := rfl
@[simp] theorem State.countDraw_st (s : State) : s.countDraw.st = s.st := rfl
@[simp] theorem State.countDraw_fb (s : State) : s.countDraw.fb = s.fb := rfl
@[simp] theorem State.countDraw_keys (s : State) : s.countDraw.keys = s.keys := rfl
@[simp] theorem State.countDraw_mem (s : State) : s.countDraw.mem = s.mem := rfl
@[simp] theorem State.countDraw_run (s : State) : s.countDraw.run = s.run := rfl
@[simp] theorem State.countDraw_draws (s : State) : s.countDraw.draws = s.draws + 1 := rfl
@[simp] theorem State.countDraw_dialect (s : State) : s.countDraw.dialect = s.dialect := rfl

/-! ### `State.tickTimers` -/

@[simp] theorem State.tickTimers_v (s : State) : s.tickTimers.v = s.v := rfl
@[simp] theorem State.tickTimers_i (s : State) : s.tickTimers.i = s.i := rfl
@[simp] theorem State.tickTimers_pc (s : State) : s.tickTimers.pc = s.pc := rfl
@[simp] theorem State.tickTimers_stack (s : State) : s.tickTimers.stack = s.stack := rfl
@[simp] theorem State.tickTimers_dt (s : State) : s.tickTimers.dt = tickTimer s.dt := rfl
@[simp] theorem State.tickTimers_st (s : State) : s.tickTimers.st = tickTimer s.st := rfl
@[simp] theorem State.tickTimers_fb (s : State) : s.tickTimers.fb = s.fb := rfl
@[simp] theorem State.tickTimers_keys (s : State) : s.tickTimers.keys = s.keys := rfl
@[simp] theorem State.tickTimers_mem (s : State) : s.tickTimers.mem = s.mem := rfl
@[simp] theorem State.tickTimers_run (s : State) : s.tickTimers.run = s.run := rfl
@[simp] theorem State.tickTimers_draws (s : State) : s.tickTimers.draws = s.draws := rfl
@[simp] theorem State.tickTimers_dialect (s : State) : s.tickTimers.dialect = s.dialect := rfl

/-! ### `State.setKeys` -/

@[simp] theorem State.setKeys_v (s : State) (k : Keypad) : (s.setKeys k).v = s.v := rfl
@[simp] theorem State.setKeys_i (s : State) (k : Keypad) : (s.setKeys k).i = s.i := rfl
@[simp] theorem State.setKeys_pc (s : State) (k : Keypad) : (s.setKeys k).pc = s.pc := rfl
@[simp] theorem State.setKeys_stack (s : State) (k : Keypad) : (s.setKeys k).stack = s.stack := rfl
@[simp] theorem State.setKeys_dt (s : State) (k : Keypad) : (s.setKeys k).dt = s.dt := rfl
@[simp] theorem State.setKeys_st (s : State) (k : Keypad) : (s.setKeys k).st = s.st := rfl
@[simp] theorem State.setKeys_fb (s : State) (k : Keypad) : (s.setKeys k).fb = s.fb := rfl
@[simp] theorem State.setKeys_keys (s : State) (k : Keypad) : (s.setKeys k).keys = k := rfl
@[simp] theorem State.setKeys_mem (s : State) (k : Keypad) : (s.setKeys k).mem = s.mem := rfl
@[simp] theorem State.setKeys_run (s : State) (k : Keypad) : (s.setKeys k).run = s.run := rfl
@[simp] theorem State.setKeys_draws (s : State) (k : Keypad) : (s.setKeys k).draws = s.draws := rfl
@[simp] theorem State.setKeys_dialect (s : State) (k : Keypad) : (s.setKeys k).dialect = s.dialect := rfl

/-! ### Reading a register -/

theorem State.getV_eq (s : State) (r : RegIndex) : s.getV r = s.v[r] := rfl

@[simp] theorem State.getV_mk (v : Vector Byte 16) (i pc : Word) (stack : List Word) (dt st : Byte) (fb : Framebuffer)
    (keys : Keypad) (mem : Memory) (run : RunState) (draws : Nat) (dialect : Dialect) (r : RegIndex) :
    (State.mk v i pc stack dt st fb keys mem run draws dialect).getV r = v[r] := rfl

@[simp] theorem State.getV_setV (s : State) (x r : RegIndex) (b : Byte) :
    (s.setV x b).getV r = if r = x then b else s.getV r := by
  by_cases h : r = x
  · simp [State.getV, State.setV, h]
  · have h' : x.val ≠ r.val := fun e => h (Fin.ext e.symm)
    simp [State.getV, State.setV, h, Vector.getElem_set_ne, h']

@[simp] theorem State.getV_setFlag (s : State) (r : RegIndex) (b : Byte) :
    (s.setFlag b).getV r = if r = 15 then b else s.getV r := State.getV_setV s 15 r b

@[simp] theorem State.getV_setRegistersUpTo (s : State) (x r : RegIndex) (f : Nat → Byte) :
    (s.setRegistersUpTo x f).getV r = if r ≤ x then f r.val else s.getV r := by
  simp [State.getV, State.setRegistersUpTo]

@[simp] theorem State.getV_advance (s : State) (r : RegIndex) : s.advance.getV r = s.getV r := rfl
@[simp] theorem State.getV_skipIf (s : State) (c : Bool) (r : RegIndex) : (s.skipIf c).getV r = s.getV r := rfl
@[simp] theorem State.getV_raise (s : State) (f : Fault) (r : RegIndex) : (s.raise f).getV r = s.getV r := rfl
@[simp] theorem State.getV_push (s : State) (a : Word) (r : RegIndex) : (s.push a).getV r = s.getV r := rfl
@[simp] theorem State.getV_drop (s : State) (r : RegIndex) : s.drop.getV r = s.getV r := rfl
@[simp] theorem State.getV_countDraw (s : State) (r : RegIndex) : s.countDraw.getV r = s.getV r := rfl
@[simp] theorem State.getV_tickTimers (s : State) (r : RegIndex) : s.tickTimers.getV r = s.getV r := rfl
@[simp] theorem State.getV_setKeys (s : State) (k : Keypad) (r : RegIndex) : (s.setKeys k).getV r = s.getV r := rfl

/-- Two register files that read alike are the same. -/
theorem registers_ext (v w : Vector Byte 16) (h : ∀ r : RegIndex, v[r] = w[r]) : v = w := by
  apply Vector.ext
  intro k hk
  exact h ⟨k, hk⟩

end Sys2Proof.Machine
end

