-- ==== Sys2Proof/Laws/Ops.lean ====
section
/-! SUPPORT. What each shared operation can do, said once: the bounds check, a memory transfer, the key wait, the fetch, and
placing an instruction word. -/

namespace Sys2Proof.Machine

/-! ### The bounds check (R74) -/

theorem lowestOutOfBounds_eq_none (base count : Nat) :
    lowestOutOfBounds base count = none ↔ count = 0 ∨ base + count ≤ 0x1000 := by
  unfold lowestOutOfBounds
  split
  · simp; omega
  · simp; omega

theorem lowestOutOfBounds_eq_some (base count a : Nat) :
    lowestOutOfBounds base count = some a ↔ (count ≠ 0 ∧ 0x1000 < base + count) ∧ a = max base 0x1000 := by
  unfold lowestOutOfBounds
  split
  · simp only [Option.some.injEq]
    omega
  · simp only [reduceCtorEq, false_iff]
    omega

/-- The reported address is the lowest of the transfer that lies above 0xFFF. -/
theorem lowestOutOfBounds_lowest (base count a : Nat) :
    lowestOutOfBounds base count = some a ↔
      (base ≤ a ∧ a < base + count ∧ a > 0xFFF) ∧ ∀ b, base ≤ b → b < base + count → b > 0xFFF → a ≤ b := by
  rw [lowestOutOfBounds_eq_some]
  constructor
  · rintro ⟨⟨h1, h2⟩, rfl⟩
    exact ⟨by omega, fun b h3 h4 h5 => by omega⟩
  · rintro ⟨⟨h1, h2, h3⟩, h⟩
    have := h (max base 0x1000) (by omega) (by omega) (by omega)
    omega

/-- A transfer inside memory answers the completed state. -/
theorem State.withTransfer_inBounds (s : State) (count : Nat) (i : Instr) (done : State)
    (h : count = 0 ∨ s.i.toNat + count ≤ 0x1000) : s.withTransfer count i done = .next done := by
  unfold State.withTransfer
  rw [(lowestOutOfBounds_eq_none _ _).mpr h]

/-- A transfer that leaves memory raises at the lowest address outside. -/
theorem State.withTransfer_outOfBounds (s : State) (count : Nat) (i : Instr) (done : State)
    (h0 : count ≠ 0) (h : 0x1000 < s.i.toNat + count) :
    s.withTransfer count i done =
      .next (s.raise (.memoryOutOfBounds (max s.i.toNat 0x1000) (some (encode i)))) := by
  unfold State.withTransfer
  rw [(lowestOutOfBounds_eq_some _ _ _).mpr ⟨⟨h0, h⟩, rfl⟩]

/-- Everything a transfer can answer. -/
theorem State.withTransfer_cases {s t done : State} {count : Nat} {i : Instr} (h : s.withTransfer count i done = .next t) :
    ((count = 0 ∨ s.i.toNat + count ≤ 0x1000) ∧ t = done) ∨
    (count ≠ 0 ∧ 0x1000 < s.i.toNat + count ∧
      t = s.raise (.memoryOutOfBounds (max s.i.toNat 0x1000) (some (encode i)))) := by
  by_cases hb : count = 0 ∨ s.i.toNat + count ≤ 0x1000
  · rw [State.withTransfer_inBounds s count i done hb] at h
    exact .inl ⟨hb, by simpa using h.symm⟩
  · rw [State.withTransfer_outOfBounds s count i done (by omega) (by omega)] at h
    exact .inr ⟨by omega, by omega, by simpa using h.symm⟩

/-! ### The key wait (R303) -/

theorem leastPressed_eq_none (keys : Keypad) : leastPressed keys = none ↔ ∀ k : Fin 16, keys[k] = false := by
  simp [leastPressed]

theorem leastPressed_eq_some (keys : Keypad) (k : Fin 16) :
    leastPressed keys = some k ↔ keys[k] = true ∧ ∀ j : Fin 16, j < k → keys[j] = false := by
  constructor
  · intro h
    refine ⟨by simpa using List.find?_some (p := fun k : Fin 16 => keys[k]) h, fun j hj => ?_⟩
    unfold leastPressed at h
    rw [List.find?_eq_some_iff_getElem] at h
    obtain ⟨-, n, hn, he, hlt⟩ := h
    have hk : n = k.val := by rw [← he]; simp
    have := hlt j.val (by omega)
    simpa using this
  · rintro ⟨hk, hlt⟩
    unfold leastPressed
    rw [List.find?_eq_some_iff_getElem]
    refine ⟨hk, k.val, by simp, by simp, fun j hj => ?_⟩
    have := hlt ⟨j, by omega⟩ (by simpa [Fin.lt_def] using hj)
    simpa using this

theorem State.awaitKey_noKey (s : State) (x : RegIndex) (h : ∀ k : Fin 16, s.keys[k] = false) : s.awaitKey x = s := by
  unfold State.awaitKey
  rw [(leastPressed_eq_none _).mpr h]

theorem State.awaitKey_key (s : State) (x : RegIndex) (k : Fin 16) (hk : s.keys[k] = true)
    (hlt : ∀ j : Fin 16, j < k → s.keys[j] = false) :
    s.awaitKey x = { s with v := s.v.set x (BitVec.ofNat 8 k.val), pc := s.pc + 2, run := .running } := by
  unfold State.awaitKey
  rw [(leastPressed_eq_some _ _).mpr ⟨hk, hlt⟩]
  rfl

/-- Everything a step of a waiting core can do. -/
theorem State.awaitKey_cases (s : State) (x : RegIndex) :
    (s.awaitKey x = s ∧ ∀ k : Fin 16, s.keys[k] = false) ∨
    ∃ k : Fin 16, s.keys[k] = true ∧ (∀ j : Fin 16, j < k → s.keys[j] = false) ∧
      s.awaitKey x = { s with v := s.v.set x (BitVec.ofNat 8 k.val), pc := s.pc + 2, run := .running } := by
  cases h : leastPressed s.keys with
  | none =>
    have := (leastPressed_eq_none _).mp h
    exact .inl ⟨State.awaitKey_noKey s x this, this⟩
  | some k =>
    obtain ⟨hk, hlt⟩ := (leastPressed_eq_some _ _).mp h
    exact .inr ⟨k, hk, hlt, State.awaitKey_key s x k hk hlt⟩

/-! ### The fetch (R73) -/

theorem State.fetch_inBounds (s : State) (h : s.pc.toNat + 1 ≤ 0xFFF) : s.fetch = .word (s.mem.readWord s.pc.toNat) := by
  unfold State.fetch
  rw [if_neg (by omega), if_neg (by omega)]

theorem State.fetch_outOfBounds (s : State) (h : ¬ s.pc.toNat + 1 ≤ 0xFFF) :
    s.fetch = .outOfBounds (max s.pc.toNat 0x1000) := by
  unfold State.fetch
  by_cases h1 : s.pc.toNat > 0xFFF
  · rw [if_pos h1, Nat.max_eq_left (by omega)]
  · rw [if_neg h1, if_pos (by omega), show s.pc.toNat = 0xFFF by omega]
    rfl

/-! ### Storing and fetching a word (R71) -/

/-- A stored word is the word read back. -/
theorem Memory.readWord_writeWord (m : Memory) (a : Nat) (w : Word) (h : a + 1 ≤ 0xFFF) :
    (m.writeWord a w).readWord a = w := by
  unfold Memory.readWord Memory.writeWord
  rw [Memory.read_writeBytes m a _ a (by simp; omega), Memory.read_writeBytes m a _ (a + 1) (by simp; omega)]
  simp

/-- The next step of the placed state fetches the placed word. -/
theorem State.fetch_placeWord (s : State) (w : Word) : (s.placeWord w).fetch = .word w := by
  unfold State.placeWord
  by_cases h : s.pc.toNat + 1 > 0xFFF
  · simp only [h, if_true]
    rw [State.fetch_inBounds _ (by show 0x200 + 1 ≤ 0xFFF; decide), Memory.readWord_writeWord _ _ _ (by decide)]
  · simp only [h, if_false]
    rw [State.fetch_inBounds _ (by simp; omega), Memory.readWord_writeWord _ _ _ (by omega)]

end Sys2Proof.Machine
end

