-- ==== Sys2Proof/Laws/Exec.lean ====
section
/-! SUPPORT. What executing one instruction can do to the run state, said once for all 35. -/

namespace Sys2Proof.Machine

/-- The inversion of an instruction, as to the run state: it raises one of its own fatal conditions (a bounds fault with its own
word, every bit of which it uses), or keeps the run state, or is `LD Vx, K` and starts the wait. -/
theorem exec_cases {i : Instr} {s t : State} (h : exec i s = .next t) :
    (∃ f, t = s.raise f ∧ mayRaise i f ∧
      ∀ a w, f = .memoryOutOfBounds a (some w) → w = encode i ∧ a > 0xFFF ∧ usedBits i = 0xFFFF) ∨
    (t.run = s.run ∨ ∃ x, i = .ldVxK x ∧ t = { s with run := .awaitingKey x }) := by
  cases i
  case call n =>
    simp only [exec, execCall] at h
    split at h <;> cases h
    · exact .inr (.inl rfl)
    · exact .inl ⟨_, rfl, trivial, fun a w e => by cases e⟩
  case ret =>
    simp only [exec, execRet] at h
    split at h <;> cases h
    · exact .inl ⟨_, rfl, trivial, fun a w e => by cases e⟩
    · exact .inr (.inl rfl)
  case jpV0 n =>
    simp only [exec, execJpV0] at h
    split at h <;> cases h
    · exact .inl ⟨_, rfl, trivial, fun a w e => by cases e; exact ⟨rfl, ‹_›, rfl⟩⟩
    · exact .inr (.inl rfl)
  case drn x y n =>
    rcases State.withTransfer_cases h with ⟨-, rfl⟩ | ⟨-, -, rfl⟩
    · exact .inr (.inl rfl)
    · exact .inl ⟨_, rfl, trivial, fun a w e => by cases e; exact ⟨rfl, by omega, rfl⟩⟩
  case ldB x =>
    rcases State.withTransfer_cases h with ⟨-, rfl⟩ | ⟨-, -, rfl⟩
    · exact .inr (.inl rfl)
    · exact .inl ⟨_, rfl, trivial, fun a w e => by cases e; exact ⟨rfl, by omega, rfl⟩⟩
  case ldMemVx x =>
    rcases State.withTransfer_cases h with ⟨-, rfl⟩ | ⟨-, -, rfl⟩
    · exact .inr (.inl rfl)
    · exact .inl ⟨_, rfl, trivial, fun a w e => by cases e; exact ⟨rfl, by omega, rfl⟩⟩
  case ldVxMem x =>
    rcases State.withTransfer_cases h with ⟨-, rfl⟩ | ⟨-, -, rfl⟩
    · exact .inr (.inl rfl)
    · exact .inl ⟨_, rfl, trivial, fun a w e => by cases e; exact ⟨rfl, by omega, rfl⟩⟩
  case ldVxK x => cases h; exact .inr (.inr ⟨x, rfl, rfl⟩)
  case addI x =>
    simp only [exec, execAddI] at h
    split at h <;> cases h <;> exact .inr (.inl rfl)
  all_goals (cases h; exact .inr (.inl rfl))

end Sys2Proof.Machine
end

