-- ==== Sys2Proof/Laws/PerInstr.lean ====
section
/-! SUPPORT. The per-instruction family `TopNibble`: the word of an instruction has the top nibble of its row of R107. -/

namespace Sys2Proof.Laws.TopNibble

/-- Bits 15 to 12 of the pattern of an instruction's row of R107. -/
def expected : Instr → BitVec 4
  | .sys _ => 0x0
  | .cls => 0x0
  | .ret => 0x0
  | .jp _ => 0x1
  | .call _ => 0x2
  | .seImm _ _ => 0x3
  | .sneImm _ _ => 0x4
  | .seReg _ _ => 0x5
  | .ldImm _ _ => 0x6
  | .addImm _ _ => 0x7
  | .ldReg _ _ => 0x8
  | .orReg _ _ => 0x8
  | .andReg _ _ => 0x8
  | .xorReg _ _ => 0x8
  | .addReg _ _ => 0x8
  | .sub _ _ => 0x8
  | .shr _ _ => 0x8
  | .subn _ _ => 0x8
  | .shl _ _ => 0x8
  | .sneReg _ _ => 0x9
  | .ldI _ => 0xA
  | .jpV0 _ => 0xB
  | .rnd _ _ => 0xC
  | .drn _ _ _ => 0xD
  | .skp _ => 0xE
  | .sknp _ => 0xE
  | .ldVxDT _ => 0xF
  | .ldVxK _ => 0xF
  | .ldDTVx _ => 0xF
  | .ldSTVx _ => 0xF
  | .addI _ => 0xF
  | .ldF _ => 0xF
  | .ldB _ => 0xF
  | .ldMemVx _ => 0xF
  | .ldVxMem _ => 0xF

/-- The encoder puts an instruction in the group of its row. -/
def Statement (i : Instr) : Prop := opField (encode i) = expected i

theorem sys (nnn : BitVec 12) : Statement (.sys nnn) := opField_encodeAddress _ _
theorem cls : Statement (.cls) := opField_encodeAddress _ _
theorem ret : Statement (.ret) := opField_encodeAddress _ _
theorem jp (nnn : BitVec 12) : Statement (.jp nnn) := opField_encodeAddress _ _
theorem call (nnn : BitVec 12) : Statement (.call nnn) := opField_encodeAddress _ _
theorem seImm (x : RegIndex) (kk : Byte) : Statement (.seImm x kk) := opField_encodeByte _ _ _
theorem sneImm (x : RegIndex) (kk : Byte) : Statement (.sneImm x kk) := opField_encodeByte _ _ _
theorem seReg (x : RegIndex) (y : RegIndex) : Statement (.seReg x y) := opField_encodeRegs _ _ _ _
theorem ldImm (x : RegIndex) (kk : Byte) : Statement (.ldImm x kk) := opField_encodeByte _ _ _
theorem addImm (x : RegIndex) (kk : Byte) : Statement (.addImm x kk) := opField_encodeByte _ _ _
theorem ldReg (x : RegIndex) (y : RegIndex) : Statement (.ldReg x y) := opField_encodeRegs _ _ _ _
theorem orReg (x : RegIndex) (y : RegIndex) : Statement (.orReg x y) := opField_encodeRegs _ _ _ _
theorem andReg (x : RegIndex) (y : RegIndex) : Statement (.andReg x y) := opField_encodeRegs _ _ _ _
theorem xorReg (x : RegIndex) (y : RegIndex) : Statement (.xorReg x y) := opField_encodeRegs _ _ _ _
theorem addReg (x : RegIndex) (y : RegIndex) : Statement (.addReg x y) := opField_encodeRegs _ _ _ _
theorem sub (x : RegIndex) (y : RegIndex) : Statement (.sub x y) := opField_encodeRegs _ _ _ _
theorem shr (x : RegIndex) (y : RegIndex) : Statement (.shr x y) := opField_encodeRegs _ _ _ _
theorem subn (x : RegIndex) (y : RegIndex) : Statement (.subn x y) := opField_encodeRegs _ _ _ _
theorem shl (x : RegIndex) (y : RegIndex) : Statement (.shl x y) := opField_encodeRegs _ _ _ _
theorem sneReg (x : RegIndex) (y : RegIndex) : Statement (.sneReg x y) := opField_encodeRegs _ _ _ _
theorem ldI (nnn : BitVec 12) : Statement (.ldI nnn) := opField_encodeAddress _ _
theorem jpV0 (nnn : BitVec 12) : Statement (.jpV0 nnn) := opField_encodeAddress _ _
theorem rnd (x : RegIndex) (kk : Byte) : Statement (.rnd x kk) := opField_encodeByte _ _ _
theorem drn (x : RegIndex) (y : RegIndex) (n : BitVec 4) : Statement (.drn x y n) := opField_encodeRegs _ _ _ _
theorem skp (x : RegIndex) : Statement (.skp x) := opField_encodeByte _ _ _
theorem sknp (x : RegIndex) : Statement (.sknp x) := opField_encodeByte _ _ _
theorem ldVxDT (x : RegIndex) : Statement (.ldVxDT x) := opField_encodeByte _ _ _
theorem ldVxK (x : RegIndex) : Statement (.ldVxK x) := opField_encodeByte _ _ _
theorem ldDTVx (x : RegIndex) : Statement (.ldDTVx x) := opField_encodeByte _ _ _
theorem ldSTVx (x : RegIndex) : Statement (.ldSTVx x) := opField_encodeByte _ _ _
theorem addI (x : RegIndex) : Statement (.addI x) := opField_encodeByte _ _ _
theorem ldF (x : RegIndex) : Statement (.ldF x) := opField_encodeByte _ _ _
theorem ldB (x : RegIndex) : Statement (.ldB x) := opField_encodeByte _ _ _
theorem ldMemVx (x : RegIndex) : Statement (.ldMemVx x) := opField_encodeByte _ _ _
theorem ldVxMem (x : RegIndex) : Statement (.ldVxMem x) := opField_encodeByte _ _ _

end Sys2Proof.Laws.TopNibble
end

