-- ==== Sys2Proof/Laws/Step.lean ====
section
/-! SUPPORT. Everything a step can do, said once (R130, R343). -/

namespace Sys2Proof.Machine

theorem step_faulted (s : State) (f : Fault) (h : s.run = .faulted f) : step s = .fault f := by
  simp [step, cycle, h]

theorem step_awaiting (s : State) (x : RegIndex) (h : s.run = .awaitingKey x) : step s = .next (s.awaitKey x) := by
  simp [step, cycle, h]

theorem step_fetchFault (s : State) (h : s.run = .running) (hp : ¬ s.pc.toNat + 1 ≤ 0xFFF) :
    step s = .next (s.raise (.memoryOutOfBounds (max s.pc.toNat 0x1000) none)) := by
  simp [step, cycle, h, runInstruction, State.fetch_outOfBounds s hp]

theorem step_instr (s : State) (i : Instr) (h : s.run = .running) (hp : s.pc.toNat + 1 ≤ 0xFFF)
    (hd : decodeWord (s.mem.readWord s.pc.toNat) = .instr i) : step s = exec i s := by
  simp [step, cycle, h, runInstruction, State.fetch_inBounds s hp, hd]

theorem step_invalid (s : State) (w : Word) (h : s.run = .running) (hp : s.pc.toNat + 1 ≤ 0xFFF)
    (hd : decodeWord (s.mem.readWord s.pc.toNat) = .invalid w) : step s = .next (s.raise (.invalidOpcode s.pc w)) := by
  simp [step, cycle, h, runInstruction, State.fetch_inBounds s hp, hd]

/-- The inversion of a step: a faulted core has none; a waiting core looks at the keypad; a running core fails to fetch, raises on
an invalid word, or executes the instruction it decodes. -/
theorem step_cases {s t : State} (h : step s = .next t) :
    (∃ x, s.run = .awaitingKey x ∧ t = s.awaitKey x) ∨
    (s.run = .running ∧ ¬ s.pc.toNat + 1 ≤ 0xFFF ∧
      t = s.raise (.memoryOutOfBounds (max s.pc.toNat 0x1000) none)) ∨
    (∃ w, s.run = .running ∧ s.pc.toNat + 1 ≤ 0xFFF ∧ decodeWord (s.mem.readWord s.pc.toNat) = .invalid w ∧
      t = s.raise (.invalidOpcode s.pc w)) ∨
    (∃ i, s.run = .running ∧ s.pc.toNat + 1 ≤ 0xFFF ∧ decodeWord (s.mem.readWord s.pc.toNat) = .instr i ∧
      exec i s = .next t) := by
  cases hr : s.run with
  | faulted f => simp [step_faulted s f hr] at h
  | awaitingKey x =>
    rw [step_awaiting s x hr] at h
    exact .inl ⟨x, rfl, by simpa using h.symm⟩
  | running =>
    by_cases hp : s.pc.toNat + 1 ≤ 0xFFF
    · cases hd : decodeWord (s.mem.readWord s.pc.toNat) with
      | invalid w =>
        rw [step_invalid s w hr hp hd] at h
        exact .inr (.inr (.inl ⟨w, rfl, hp, rfl, by simpa using h.symm⟩))
      | instr i =>
        rw [step_instr s i hr hp hd] at h
        exact .inr (.inr (.inr ⟨i, rfl, hp, rfl, h⟩))
    · rw [step_fetchFault s hr hp] at h
      exact .inr (.inl ⟨rfl, hp, by simpa using h.symm⟩)

/-- A step of the state that `withFetchWord` gives executes what the decoder reads from the word. -/
theorem step_withFetchWord (s : State) (nbits w : Nat) (i : Instr) (h : decodeWord (tableWord nbits w) = .instr i) :
    step (s.withFetchWord nbits w) = exec i (s.withFetchWord nbits w) := by
  have hrun : (s.withFetchWord nbits w).run = .running := rfl
  have hf := State.fetch_placeWord s (tableWord nbits w)
  simp only [step, cycle, hrun, runInstruction]
  simp only [State.withFetchWord, hf, h]

end Sys2Proof.Machine
end

