-- ==== Sys2Proof/Tests/Slice0.lean ====
section
/-! SUPPORT. Tests: the well-formedness smoke, written-out words, one step per instruction with the results of
spec/95_test_vectors.md (vector named in each comment), and a witness for the hypotheses of each statement. -/

namespace Sys2Proof.Tests

open Sys2Proof.Machine

/-! ## Helpers -/

/-- One field of the next state an outcome holds. -/
def after {α : Type} (r : Result) (f : State → α) : Option α :=
  match r with
  | .next t => some (f t)
  | .fault _ => none
  | .refused _ => none

/-- The start of a vector: the state after reset with the word under test at 0x200. -/
def start (w : Nat) : State := State.reset.withFetchWord 16 w

/-- Set V0 and V1, the registers most vectors use. -/
def State.withV01 (s : State) (a b : Byte) : State := (s.setV 0 a).setV 1 b

/-- The other dialect. -/
def State.otherDialect (s : State) : State := { s with dialect := { shiftSource := .vy, addISetsVF := true } }

/-- A keypad with some keys pressed. -/
def pressed (ks : List (Fin 16)) : Keypad := Vector.ofFn fun k => decide (k ∈ ks)

/-! ## Well-formedness smoke: each check refuses an ill-formed term -/

theorem test_wf_refuses_sys_E0 : Instr.wf (.sys 0x1E0) = false := by decide
theorem test_wf_refuses_sys_EE : Instr.wf (.sys 0x0EE) = false := by decide
theorem test_wf_accepts_sys : Instr.wf (.sys 0x123) = true := by decide

/-! ## Words written out from R107 -/

theorem test_decode_sys : decodeTableWord 16 0x0123 = some (.sys 0x123) := by decide
theorem test_decode_cls : decodeTableWord 16 0x01E0 = some .cls := by decide
theorem test_decode_ret : decodeTableWord 16 0x0FEE = some .ret := by decide
theorem test_decode_jp : decodeTableWord 16 0x1ABC = some (.jp 0xABC) := by decide
theorem test_decode_call : decodeTableWord 16 0x2300 = some (.call 0x300) := by decide
theorem test_decode_seImm : decodeTableWord 16 0x3210 = some (.seImm 2 0x10) := by decide
theorem test_decode_sneImm : decodeTableWord 16 0x4211 = some (.sneImm 2 0x11) := by decide
theorem test_decode_seReg : decodeTableWord 16 0x5017 = some (.seReg 0 1) := by decide
theorem test_decode_ldImm : decodeTableWord 16 0x6AFF = some (.ldImm 10 0xFF) := by decide
theorem test_decode_addImm : decodeTableWord 16 0x7F05 = some (.addImm 15 0x05) := by decide
theorem test_decode_ldReg : decodeTableWord 16 0x8130 = some (.ldReg 1 3) := by decide
theorem test_decode_orReg : decodeTableWord 16 0x8011 = some (.orReg 0 1) := by decide
theorem test_decode_andReg : decodeTableWord 16 0x8012 = some (.andReg 0 1) := by decide
theorem test_decode_xorReg : decodeTableWord 16 0x8223 = some (.xorReg 2 2) := by decide
theorem test_decode_addReg : decodeTableWord 16 0x80F4 = some (.addReg 0 15) := by decide
theorem test_decode_sub : decodeTableWord 16 0x8F15 = some (.sub 15 1) := by decide
theorem test_decode_shr : decodeTableWord 16 0x8016 = some (.shr 0 1) := by decide
theorem test_decode_subn : decodeTableWord 16 0x8017 = some (.subn 0 1) := by decide
theorem test_decode_shl : decodeTableWord 16 0x801E = some (.shl 0 1) := by decide
theorem test_decode_sneReg : decodeTableWord 16 0x901F = some (.sneReg 0 1) := by decide
theorem test_decode_ldI : decodeTableWord 16 0xAFFF = some (.ldI 0xFFF) := by decide
theorem test_decode_jpV0 : decodeTableWord 16 0xBFF8 = some (.jpV0 0xFF8) := by decide
theorem test_decode_rnd : decodeTableWord 16 0xC30F = some (.rnd 3 0x0F) := by decide
theorem test_decode_drn : decodeTableWord 16 0xD125 = some (.drn 1 2 5) := by decide
theorem test_decode_skp : decodeTableWord 16 0xE59E = some (.skp 5) := by decide
theorem test_decode_sknp : decodeTableWord 16 0xE5A1 = some (.sknp 5) := by decide
theorem test_decode_ldVxDT : decodeTableWord 16 0xF207 = some (.ldVxDT 2) := by decide
theorem test_decode_ldVxK : decodeTableWord 16 0xF30A = some (.ldVxK 3) := by decide
theorem test_decode_ldDTVx : decodeTableWord 16 0xF015 = some (.ldDTVx 0) := by decide
theorem test_decode_ldSTVx : decodeTableWord 16 0xF118 = some (.ldSTVx 1) := by decide
theorem test_decode_addI : decodeTableWord 16 0xF11E = some (.addI 1) := by decide
theorem test_decode_ldF : decodeTableWord 16 0xF029 = some (.ldF 0) := by decide
theorem test_decode_ldB : decodeTableWord 16 0xF133 = some (.ldB 1) := by decide
theorem test_decode_ldMemVx : decodeTableWord 16 0xF155 = some (.ldMemVx 1) := by decide
theorem test_decode_ldVxMem : decodeTableWord 16 0xF265 = some (.ldVxMem 2) := by decide
/-- V-INV-1 to V-INV-6 -/
theorem test_decode_invalid :
    [0x8008, 0x800F, 0xE000, 0xE09F, 0xF000, 0xFFFF].map (decodeTableWord 16) = List.replicate 6 none := by decide
theorem test_decode_truncated : decodeBytes [0x12] = .truncated := by decide

/-! ## One step per instruction -/

/-- V-SYS-1 -/
theorem test_sys : after (step (start 0x0123)) (·.pc) = some 0x202 := by decide
/-- V-CLS-2 -/
theorem test_cls : after (step { start 0x01E0 with fb := Framebuffer.off.toggle 5 5 }) (·.fb.get 5 5) = some false := by
  decide
/-- V-RET-2 -/
theorem test_ret : after (step { start 0x0FEE with stack := [0x206] }) (fun t => (t.pc, t.sp)) = some (0x206, 0) := by decide
/-- V-RET-3 -/
theorem test_ret_underflow : after (step (start 0x00EE)) (·.run) = some (.faulted (.stackUnderflow 0x200 0)) := by decide
/-- V-JP-1 -/
theorem test_jp : after (step (start 0x1ABC)) (·.pc) = some 0xABC := by decide
/-- V-CALL-2 -/
theorem test_call : after (step { start 0x2300 with stack := List.replicate 15 0x202 })
    (fun t => (t.pc, t.sp, t.stack.getLast?)) = some (0x300, 16, some 0x202) := by decide
/-- V-CALL-3 -/
theorem test_call_overflow : after (step { start 0x2300 with stack := List.replicate 16 0x202 }) (fun t => (t.pc, t.run)) =
    some (0x200, .faulted (.stackOverflow 0x200 16)) := by decide
/-- V-SE-1, V-SE-2 -/
theorem test_seImm : [0x3210, 0x3211].map (fun w => after (step ((start w).setV 2 0x10)) (·.pc)) =
    [some 0x204, some 0x202] := by decide
/-- V-SNE-1, V-SNE-2 -/
theorem test_sneImm : [0x4211, 0x4210].map (fun w => after (step ((start w).setV 2 0x10)) (·.pc)) =
    [some 0x204, some 0x202] := by decide
/-- V-SEV-3 -/
theorem test_seReg : after (step (State.withV01 (start 0x5017) 0x33 0x33)) (·.pc) = some 0x204 := by decide
/-- V-SNEV-2 -/
theorem test_sneReg : after (step (State.withV01 (start 0x901F) 0x07 0x07)) (·.pc) = some 0x202 := by decide
/-- V-LD-2 -/
theorem test_ldImm : after (step ((start 0x6F00).setV 15 1)) (·.getV 15) = some 0 := by decide
/-- V-ADDK-1 -/
theorem test_addImm : after (step (((start 0x7001).setV 0 0xFF).setV 15 7)) (fun t => (t.getV 0, t.getV 15)) =
    some (0, 7) := by decide
/-- V-LDR-1 -/
theorem test_ldReg : after (step ((start 0x8130).setV 3 0x42)) (·.getV 1) = some 0x42 := by decide
/-- V-OR-1 -/
theorem test_orReg : after (step ((State.withV01 (start 0x8011) 0xF0 0x0F).setV 15 5)) (fun t => (t.getV 0, t.getV 15)) =
    some (0xFF, 5) := by decide
/-- V-AND-1 -/
theorem test_andReg : after (step (State.withV01 (start 0x8012) 0xF3 0x3F)) (·.getV 0) = some 0x33 := by decide
/-- V-XOR-1 -/
theorem test_xorReg : after (step (State.withV01 (start 0x8013) 0xFF 0x0F)) (·.getV 0) = some 0xF0 := by decide
/-- V-ADD-3: the flag overwrites the sum -/
theorem test_addReg_flag_last : after (step (((start 0x8F14).setV 15 0xFF).setV 1 1)) (·.getV 15) = some 1 := by decide
/-- V-ADD-4: VF read before it is written -/
theorem test_addReg_reads_old_VF : after (step (((start 0x80F4).setV 0 0x10).setV 15 5)) (fun t => (t.getV 0, t.getV 15)) =
    some (0x15, 0) := by decide
/-- V-SUB-2 -/
theorem test_sub : after (step (State.withV01 (start 0x8015) 3 5)) (fun t => (t.getV 0, t.getV 15)) = some (0xFE, 0) := by
  decide
/-- V-SUB-3: equal operands, no borrow -/
theorem test_sub_equal : after (step (State.withV01 (start 0x8015) 0x42 0x42)) (fun t => (t.getV 0, t.getV 15)) =
    some (0, 1) := by decide
/-- V-SHR-3, `VX` and `VY` -/
theorem test_shr : [State.withV01 (start 0x8016) 0 3, State.otherDialect (State.withV01 (start 0x8016) 0 3)].map
    (fun s => after (step s) (fun t => (t.getV 0, t.getV 15))) = [some (0, 0), some (1, 1)] := by decide
/-- V-SHR-1 -/
theorem test_shr_in_place : after (step (State.withV01 (start 0x8006) 5 0)) (fun t => (t.getV 0, t.getV 15)) =
    some (2, 1) := by decide
/-- V-SUBN-2 -/
theorem test_subn : after (step (State.withV01 (start 0x8017) 5 3)) (fun t => (t.getV 0, t.getV 15)) = some (0xFE, 0) := by
  decide
/-- V-SHL-3, `VX` and `VY` -/
theorem test_shl : [State.withV01 (start 0x801E) 1 0x80, State.otherDialect (State.withV01 (start 0x801E) 1 0x80)].map
    (fun s => after (step s) (fun t => (t.getV 0, t.getV 15))) = [some (2, 0), some (0, 1)] := by decide
/-- V-LDI-1 -/
theorem test_ldI : after (step (start 0xAFFF)) (·.i) = some 0x0FFF := by decide
/-- V-JPV0-3 -/
theorem test_jpV0 : after (step ((start 0xBF00).setV 0 0xFF)) (·.pc) = some 0xFFF := by decide
/-- V-JPV0-2 -/
theorem test_jpV0_outOfBounds : after (step ((start 0xBFF8).setV 0 0x10)) (·.run) =
    some (.faulted (.memoryOutOfBounds 0x1008 (some 0xBFF8))) := by decide
/-- V-RND-2: any draw -/
theorem test_rnd_mask_zero : after (exec (.rnd 0 0) State.reset) (·.getV 0) = some 0 := by
  simp only [after, exec, execRnd, State.writeVx, State.getV, State.setV, State.advance, State.drawnByte]
  simp
/-- Each RND takes a fresh draw (R165). -/
theorem test_rnd_counts : after (step (start 0xC30F)) (·.draws) = some 1 := by decide
/-- V-DRN-3: horizontal wrap -/
theorem test_drn_wraps : after (step { State.withV01 (start 0xD011) 62 0 with
      i := 0x300, mem := (start 0xD011).mem.write 0x300 0xFF })
    (fun t => (t.fb.get 63 0, t.fb.get 5 0, t.fb.get 6 0, t.getV 15)) = some (true, true, false, 0) := by decide
/-- V-DRN-10: bit 4 of 0x10 is column 3; a collision -/
theorem test_drn_collides : after (step { start 0xD001 with
      i := 0x300, mem := (start 0xD001).mem.write 0x300 0x10
      fb := (Framebuffer.off.toggle 3 0).toggle 4 0 })
    (fun t => (t.fb.get 3 0, t.fb.get 4 0, t.getV 15)) = some (false, true, 1) := by decide
/-- V-SKP-3: low nibble -/
theorem test_skp : after (step ({ start 0xE59E with keys := pressed [7] }.setV 5 0x17)) (·.pc) = some 0x204 := by decide
/-- V-SKNP-2 -/
theorem test_sknp : after (step ({ start 0xE5A1 with keys := pressed [7] }.setV 5 7)) (·.pc) = some 0x202 := by decide
/-- V-DT-2 -/
theorem test_ldVxDT : after (step { start 0xF207 with dt := 0x3C }) (·.getV 2) = some 0x3C := by decide
/-- V-K-1: the executing step samples no key -/
theorem test_ldVxK : after (step { start 0xF30A with keys := pressed [4, 10] }) (fun t => (t.run, t.pc, t.getV 3)) =
    some (.awaitingKey 3, 0x200, 0) := by decide
/-- V-K-3: the least key -/
theorem test_ldVxK_completes : after (step { start 0xF30A with keys := pressed [4, 10], run := .awaitingKey 3 })
    (fun t => (t.run, t.pc, t.getV 3)) = some (.running, 0x202, 4) := by decide
/-- V-DT-1 -/
theorem test_ldDTVx : after (step ((start 0xF015).setV 0 5)) (·.dt) = some 5 := by decide
/-- V-STT-1 -/
theorem test_ldSTVx : after (step ((start 0xF118).setV 1 2)) (fun t => (t.st, t.shouldBeep)) = some (2, true) := by decide
/-- V-ADDI-1, both dialects -/
theorem test_addI : [{ (start 0xF11E).setV 1 1 with i := 0x0FFF }, State.otherDialect { (start 0xF11E).setV 1 1 with i := 0x0FFF }].map
    (fun s => after (step (s.setV 15 7)) (fun t => (t.i, t.getV 15))) = [some (0x1000, 7), some (0x1000, 1)] := by decide
/-- V-ADDI-2: the 16-bit wrap -/
theorem test_addI_wraps : after (step { (start 0xF01E).setV 0 2 with i := 0xFFFF }) (·.i) = some 1 := by decide
/-- V-LDF-2 -/
theorem test_ldF : after (step ((start 0xF029).setV 0 0x1F)) (·.i) = some 0x009B := by decide
/-- V-BCD-1 -/
theorem test_ldB : after (step { (start 0xF133).setV 1 0x9C with i := 0x300 }) (·.mem.readBytes 0x300 3) = some [1, 5, 6] := by
  decide
/-- V-BCD-6 -/
theorem test_ldB_outOfBounds : after (step { (start 0xF033).setV 0 7 with i := 0xFFE })
    (fun t => (t.run, t.mem.readBytes 0xFFE 2)) = some (.faulted (.memoryOutOfBounds 0x1000 (some 0xF033)), [0, 0]) := by decide
/-- V-STM-1 -/
theorem test_ldMemVx : after (step { State.withV01 (start 0xF155) 0x11 0x22 with i := 0x400 })
    (fun t => (t.mem.readBytes 0x400 3, t.i)) = some ([0x11, 0x22, 0], 0x400) := by decide
/-- V-STM-4 -/
theorem test_ldMemVx_outOfBounds : after (step { start 0xF055 with i := 0x1005 }) (·.run) =
    some (.faulted (.memoryOutOfBounds 0x1005 (some 0xF055))) := by decide
/-- V-LDM-1 -/
theorem test_ldVxMem : after (step { start 0xF265 with
      i := 0x300, mem := (start 0xF265).mem.writeBytes 0x300 [1, 5, 6, 9] })
    (fun t => (t.getV 0, t.getV 1, t.getV 2, t.getV 3)) = some (1, 5, 6, 0) := by decide
/-- V-LDM-3 -/
theorem test_ldVxMem_outOfBounds : after (step { (start 0xF165).setV 0 9 with i := 0xFFF }) (fun t => (t.run, t.getV 0)) =
    some (.faulted (.memoryOutOfBounds 0x1000 (some 0xF165)), 9) := by decide

/-! ## Fetch, faults, transactions -/

/-- V-INV-1 -/
theorem test_invalid : after (step (start 0x8008)) (fun t => (t.run, t.pc)) =
    some (.faulted (.invalidOpcode 0x200 0x8008), 0x200) := by decide
/-- V-FET-1, V-FET-2 -/
theorem test_fetch_outOfBounds : [0xFFF, 0x1000].map (fun p => after (step { State.reset with pc := p }) (·.run)) =
    List.replicate 2 (some (.faulted (.memoryOutOfBounds 0x1000 none))) := by decide
/-- V-JP-3: an odd PC -/
theorem test_fetch_odd : after (step { State.reset with
      pc := 0x201, mem := Memory.initial.writeBytes 0x201 [0x00, 0xE0] }) (·.pc) = some 0x203 := by decide
/-- V-FLT-1 -/
theorem test_faulted_repeats :
    ({ State.reset with run := .faulted (.invalidOpcode 0x200 0x8008) } : State).stepTransaction.2 =
      .fatal (.invalidOpcode 0x200 0x8008) := by decide
/-- V-TICK-2 -/
theorem test_tick_faulted :
    (({ State.reset with dt := 2, run := .faulted (.loadError 0) } : State).tickTimers).dt = 1 := by decide
/-- V-LOAD-2 -/
theorem test_load_too_long : (State.reset.load (List.replicate 3585 0x11)).2 = .loadError (.loadError 3585) := by
  rw [State.load, if_pos (by rw [List.length_replicate]; decide), List.length_replicate]
/-- V-LOAD-4 -/
theorem test_load_keeps_keys : (({ State.reset with keys := pressed [3] } : State).load [0x00, 0xE0]).1.keys[3] = true := by
  decide
/-- V-LOAD-5 -/
theorem test_font : (State.reset.mem.readBytes 0x050 5, State.reset.mem.readBytes 0x09B 5) =
    ([0xF0, 0x90, 0x90, 0x90, 0xF0], [0xF0, 0x80, 0xF0, 0x80, 0x80]) := by decide
/-- A write of the reset contents removes the entry (assumption log 7). -/
theorem test_memory_canonical : ((Memory.initial.write 0x051 7).write 0x300 1).write 0x051 0x90 = [(0x300, 1)] := by decide
/-- A program runs from reset by a `load` (assumption log 8): two steps of P1. -/
theorem test_schedule : (runSchedule construct [.load [0x00, 0xE0, 0x60, 0x0A], .step, .step]).getV 0 = 0x0A := by decide

/-! ## Witnesses: states and operands that meet the hypotheses of each statement -/

theorem witness_DecodeInvertsEncode : (Instr.sys 0x0E1).wf = true := by decide
theorem witness_EncodeInvertsDecode : decodeWord 0x5017 = .instr (.seReg 0 1) := by decide
theorem witness_DecodeFollowsOpcodeMap_row : ∃ r ∈ opcodeMap, (0x801E : Word) &&& r.mask = r.pattern := by decide
theorem witness_DecodeFollowsOpcodeMap_sys :
    (∀ r ∈ opcodeMap, (0x0123 : Word) &&& r.mask ≠ r.pattern) ∧ (0x0123 : Word) &&& 0xF000 = 0 := by decide
theorem witness_DecodeFollowsOpcodeMap_invalid :
    (∀ r ∈ opcodeMap, (0x800F : Word) &&& r.mask ≠ r.pattern) ∧ (0x800F : Word) &&& 0xF000 ≠ 0 := by decide
theorem witness_StepRunsTheDecodedInstruction :
    (start 0x600A).run = .running ∧ (start 0x600A).pc.toNat + 1 ≤ 0xFFF ∧
      decodeBytes [(start 0x600A).mem.read 0x200, (start 0x600A).mem.read 0x201] = .ok (.ldImm 0 0x0A) [] := by decide
theorem witness_FetchOutOfBoundsRaises :
    ({ State.reset with pc := 0x1000 } : State).pc.toNat > 0xFFF ∧ ({ State.reset with pc := 0xFFF } : State).pc.toNat = 0xFFF ∧
      State.reset.run = .running := by decide
theorem witness_InvalidWordRaises :
    (start 0x8008).run = .running ∧ (start 0x8008).pc.toNat + 1 ≤ 0xFFF ∧
      decodeWord (wordOfBytes ((start 0x8008).mem.read 0x200) ((start 0x8008).mem.read 0x201)) = .invalid 0x8008 := by decide
theorem witness_FaultedCoreRepeatsUntilLoad :
    ({ State.reset with run := .faulted (.stackUnderflow 0x200 0) } : State).run = .faulted (.stackUnderflow 0x200 0) := rfl
/-- A waiting core with no key, with key 0, and with key 15 only. -/
theorem witness_KeyWaitStartsThenTakesTheLeastKey :
    ({ State.reset with run := .awaitingKey 3 } : State).run = .awaitingKey 3 ∧ (∀ k : Fin 16, State.reset.keys[k] = false) ∧
      (pressed [0, 9])[(0 : Fin 16)] = true ∧
      (pressed [15])[(15 : Fin 16)] = true ∧ (∀ j : Fin 16, j < 15 → (pressed [15])[j] = false) := by decide
/-- A step that leaves the core running, one that leaves it waiting, one that faults. -/
theorem witness_StepAlwaysAnswersAndReportsItsResult :
    after (step (start 0x0123)) (·.run) = some .running ∧ after (step (start 0xF30A)) (·.run) = some (.awaitingKey 3) ∧
      after (step (start 0x00EE)) (·.run) = some (.faulted (.stackUnderflow 0x200 0)) := by decide
theorem witness_FatalStepChangesOnlyTheRunState :
    after (step (start 0x8008)) (·.run) = some (.faulted (.invalidOpcode 0x200 0x8008)) := by decide
theorem witness_InstructionsRaiseOnlyTheirOwnFaults :
    State.reset.run = .running ∧ after (exec .ret State.reset) (·.run) = some (.faulted (.stackUnderflow 0x200 0)) ∧
      ({ State.reset with run := .awaitingKey 3 } : State).run = .awaitingKey 3 ∧
      after (step { State.reset with run := .awaitingKey 3 }) (·.run) = some (.awaitingKey 3) := by decide
theorem witness_BoundsFaultRecordsTheFetchedWord :
    after (step { start 0xF033 with i := 0xFFE }) (·.run) = some (.faulted (.memoryOutOfBounds 0x1000 (some 0xF033))) := by
  decide
/-- A jump, a computed jump at its bound, a call, a return, a key wait, a skip taken and not, a plain instruction: none faults. -/
theorem witness_ProgramCounterAfterEachInstruction :
    after (exec (.jp 0xFFF) State.reset) (·.run) = some .running ∧
      after (exec (.jpV0 0xF00) (State.reset.setV 0 0xFF)) (·.run) = some .running ∧
      after (exec (.call 0xFFF) { State.reset with stack := List.replicate 15 0 }) (·.run) = some .running ∧
      after (exec .ret { State.reset with stack := [0x1000] }) (·.run) = some .running ∧
      after (exec (.ldVxK 3) State.reset) (·.run) = some (.awaitingKey 3) ∧
      after (exec (.seImm 0 0) State.reset) (·.run) = some .running ∧
      after (exec (.sneImm 0 0) State.reset) (·.run) = some .running ∧
      after (exec (.ldImm 0 1) State.reset) (·.run) = some .running := by decide
theorem witness_ProgramCounterAfterKeyWait :
    after (step { State.reset with run := .awaitingKey 3, keys := pressed [15] }) (·.run) = some .running := by decide
theorem witness_OnlyListedRegistersChange :
    after (exec (.addReg 0 1) State.reset) (·.pc) = some 0x202 ∧ (2 : RegIndex) ∉ writtenRegs State.reset.dialect (.addReg 0 1) := by
  decide
theorem witness_UnreadRegistersInfluenceNothing : (15 : RegIndex) ∉ readRegs State.reset.dialect (.addReg 0 1) := by decide
/-- The byte before and the byte after the stored ones. -/
theorem witness_OnlyStoredBytesChange :
    after (exec (.ldB 0) { State.reset with i := 0x300 }) (·.pc) = some 0x202 ∧
      ¬ (0x300 ≤ 0x2FF ∧ 0x2FF < 0x303) ∧ ¬ (0x300 ≤ 0x303 ∧ 0x303 < 0x303) := by decide
theorem witness_OnlyTheirWritersChangeIndexStackAndScreen :
    after (exec (.ldImm 0 1) State.reset) (·.pc) = some 0x202 := by decide
theorem witness_StepLeavesTimersAndKeypad : after (step (start 0xF015)) (·.pc) = some 0x202 := by decide
theorem witness_TicksCommuteWithOtherInstructions :
    (∀ x, Instr.ldImm 0 1 ≠ .ldVxDT x) ∧ (∀ x, Instr.ldImm 0 1 ≠ .ldDTVx x) ∧ (∀ x, Instr.ldImm 0 1 ≠ .ldSTVx x) ∧
      after (exec (.ldImm 0 1) State.reset) (·.pc) = some 0x202 := by decide
theorem witness_KeypadInfluencesOnlyKeySkips :
    (∀ x, Instr.ldVxK 0 ≠ .skp x) ∧ (∀ x, Instr.ldVxK 0 ≠ .sknp x) ∧
      after (exec (.ldVxK 0) State.reset) (·.run) = some (.awaitingKey 0) := by decide
theorem witness_ShiftsMoveOneBitIntoVF :
    State.reset.dialect.shiftSource = .vx ∧ (State.otherDialect State.reset).dialect.shiftSource = .vy := by decide
theorem witness_JumpSetsPC : State.reset.run = .running ∧ (0xFFF : BitVec 12) = 0xFFF := by decide
/-- The last call that fits, and the one that does not. -/
theorem witness_CallPushesOrOverflows :
    ({ State.reset with stack := List.replicate 15 0 } : State).sp < 16 ∧
      ({ State.reset with stack := List.replicate 16 0 } : State).sp = 16 := by decide
theorem witness_ReturnPopsOrUnderflows :
    ({ State.reset with stack := [0x206] } : State).stack = [] ++ [0x206] ∧ State.reset.stack = [] := by decide
theorem witness_ReturnAfterCallRestoresPC :
    State.reset.sp < 16 ∧ after (exec (.call 0x300) State.reset) (·.stack) = some [0x202] := by decide
/-- A target of 0xFFF and one of 0x1000. -/
theorem witness_JumpV0AddsOrRaises :
    (0xF00 : BitVec 12).toNat + ((State.reset.setV 0 0xFF).getV 0).toNat ≤ 0xFFF ∧
      (0xF01 : BitVec 12).toNat + ((State.reset.setV 0 0xFF).getV 0).toNat > 0xFFF := by decide
theorem witness_AddIndexWrapsAndMaySetVF :
    State.reset.dialect.addISetsVF = false ∧ (State.otherDialect State.reset).dialect.addISetsVF = true := by decide
/-- The last transfer of three bytes that fits, and the first that does not. -/
theorem witness_DecimalStoreWritesThreeDigits :
    ({ State.reset with i := 0xFFD } : State).i.toNat + 2 ≤ 0xFFF ∧ ({ State.reset with i := 0xFFE } : State).i.toNat + 2 > 0xFFF := by
  decide
/-- The last transfer of sixteen bytes that fits, and the first that does not (for the store and for the load). -/
theorem witness_RegisterStoreAndLoad :
    ({ State.reset with i := 0xFF0 } : State).i.toNat + (15 : RegIndex).val ≤ 0xFFF ∧
      ({ State.reset with i := 0xFF1 } : State).i.toNat + (15 : RegIndex).val > 0xFFF := by decide
theorem witness_StoreThenLoadRestoresRegisters :
    ({ State.reset with i := 0xFF0 } : State).i.toNat + (15 : RegIndex).val ≤ 0xFFF ∧
      after (exec (.ldMemVx 15) { State.reset with i := 0xFF0 }) (·.pc) = some 0x202 := by decide
theorem witness_StoreIsSeenByTheNextFetch :
    after (exec (.ldMemVx 1) { State.reset with i := 0xFFE }) (·.pc) = some 0x202 ∧
      ({ State.reset with i := 0xFFE } : State).i.toNat + (1 : RegIndex).val ≤ 0xFFF ∧
      0 + 1 ≤ (1 : RegIndex).val ∧ (0xFFE : Word).toNat = ({ State.reset with i := 0xFFE } : State).i.toNat + 0 := by decide
/-- n = 0 with I far outside, the last sprite that fits, and the first that does not. -/
theorem witness_DrawTogglesThePixelsUnderTheSprite :
    (0 : BitVec 4) = 0 ∧ ({ State.reset with i := 0xFF1 } : State).i.toNat + (15 : BitVec 4).toNat ≤ 0x1000 ∧
      (15 : BitVec 4) ≠ 0 ∧ ({ State.reset with i := 0xFF2 } : State).i.toNat + (15 : BitVec 4).toNat > 0x1000 := by decide
/-- The left pixel of glyph 0 is under its sprite; the pixel right of the glyph is not. -/
theorem witness_underSprite : underSprite { State.reset with i := 0x050 } 0 1 1 0 0 :=
  ⟨0, 0, by decide, by decide, by decide, by decide, by decide⟩
theorem witness_not_underSprite : ¬ underSprite { State.reset with i := 0x050 } 0 1 1 4 0 := by
  rintro ⟨r, c, hr, hc, hb, hx, -⟩
  have hr : r < 1 := hr
  obtain rfl : r = 0 := by omega
  have hx : 4 = (0 % 64 + c) % 64 := hx
  obtain rfl : c = 4 := by omega
  revert hb
  decide
theorem witness_DoubleDrawRestoresTheScreen :
    (0 : RegIndex) ≠ 15 ∧ (1 : RegIndex) ≠ 15 ∧ ({ State.reset with i := 0x050 } : State).i.toNat + (5 : BitVec 4).toNat ≤ 0x1000 ∧
      after (exec (.drn 0 1 5) { State.reset with i := 0x050 }) (·.pc) = some 0x202 := by decide
theorem witness_KeySkipsTestTheLowNibble :
    (15 : Fin 16).val = ((State.reset.setV 0 0xFF).getV 0).toNat % 16 ∧ (0 : Fin 16).val = (State.reset.getV 0).toNat % 16 := by
  decide
theorem witness_LoadInitialisesTheCore : 0x200 + (List.replicate 3584 (0x11 : Byte)).length ≤ 4096 := by
  rw [List.length_replicate]
theorem witness_OversizedRomFailsToLoad :
    (List.replicate 3585 (0x11 : Byte)).length > 3584 ∧ (List.replicate 3584 (0x11 : Byte)).length ≤ 3584 := by
  rw [List.length_replicate, List.length_replicate]
  decide
/-- A core at the top of memory meets the invariant, and its step, a fetch fault, answers a next state. -/
theorem witness_StepKeepsTheInvariant :
    ∃ s : State, s.Inv ∧ after (step s) (·.run) = some (.faulted (.memoryOutOfBounds 0x1000 none)) :=
  ⟨{ State.reset with pc := 0xFFF },
    ⟨by simp [State.reset, Memory.initial, Memory.wf], by decide, by simp [State.reset], by decide, fun h => absurd rfl h⟩,
    by decide⟩

end Sys2Proof.Tests
end

section
/-! SUPPORT. Proofs of the family 00_scope: a step that stops the core changes the run state alone (O13), and every schedule of
transactions keeps the invariant (O59). -/

namespace Sys2Proof.Machine

/-! ### Stopping changes the run state alone (R18, R344, D17) -/

/-- An instruction that changes the run state changes nothing else. -/
theorem exec_eq_of_run_ne {i : Instr} {s t : State} (h : exec i s = .next t) (hstop : t.run ≠ s.run) :
    t = { s with run := t.run } := by
  rcases exec_cases h with ⟨f, rfl, -, -⟩ | hrun | ⟨x, -, rfl⟩
  · rfl
  · exact absurd hrun hstop
  · rfl

/-- The step that stops a running core changes nothing but the run state. -/
theorem step_eq_of_stops {s t : State} (hr : s.run = .running) (h : step s = .next t) (hstop : t.run ≠ .running) :
    t = { s with run := t.run } := by
  rcases step_cases h with ⟨x, hx, -⟩ | ⟨-, -, rfl⟩ | ⟨w, -, -, -, rfl⟩ | ⟨i, -, -, -, hi⟩
  · simp [hr] at hx
  · rfl
  · rfl
  · exact exec_eq_of_run_ne hi (hr ▸ hstop)

/-- A step of a waiting core leaves it as it is or sets it running (R303). -/
theorem State.awaitKey_eq_or_running (s : State) (x : RegIndex) :
    s.awaitKey x = s ∨ (s.awaitKey x).run = .running := by
  rcases s.awaitKey_cases x with ⟨hs, -⟩ | ⟨k, -, -, hk⟩
  · exact .inl hs
  · exact .inr (by rw [hk])

/-- A step that faults was made by a running core. -/
theorem run_of_step_faulted {s t : State} {f : Fault} (h : step s = .next t) (hf : t.run = .faulted f) :
    s.run = .running := by
  rcases step_cases h with ⟨x, hx, rfl⟩ | ⟨hr, -, -⟩ | ⟨w, hr, -, -, -⟩ | ⟨i, hr, -, -, -⟩
  · rcases s.awaitKey_eq_or_running x with hs | hrun
    · simp [hs, hx] at hf
    · simp [hrun] at hf
  all_goals exact hr

/-- Settles O13: only a running core faults, and the step that stops it changes the run state alone. -/
theorem fatalStepChangesOnlyTheRunState : Obligations.FatalStepChangesOnlyTheRunState := by
  intro s t f h hf
  have hr : s.run = .running := run_of_step_faulted h hf
  have ht : t = { s with run := t.run } := step_eq_of_stops hr h (by simp [hf])
  exact ⟨hr, hf ▸ ht⟩

/-! ### What a step does to memory, stack and PC -/

/-- The four ways an instruction can treat memory, stack and PC together (R70, R75, R42, R135). -/
inductive Effect (s t : State) : Prop where
  /-- memory and stack stay; PC stays (a fault or a key wait), moves on, skips, or jumps inside memory -/
  | plain (hmem : t.mem = s.mem) (hstack : t.stack = s.stack)
      (hpc : t.pc = s.pc ∨ t.pc = s.pc + 2 ∨ t.pc = s.pc + 4 ∨ t.pc.toNat ≤ 0xFFF)
  /-- bytes are stored (R256, R258) -/
  | store (base : Nat) (bytes : List Byte) (hmem : t.mem = s.mem.writeBytes base bytes)
      (hstack : t.stack = s.stack) (hpc : t.pc = s.pc + 2)
  /-- a return address is pushed below the capacity (R223) -/
  | call (hmem : t.mem = s.mem) (hdepth : s.sp < 16) (hstack : t.stack = s.stack ++ [s.pc + 2])
      (hpc : t.pc.toNat ≤ 0xFFF)
  /-- the newest return address is popped into PC (R224) -/
  | ret (hmem : t.mem = s.mem) (hstack : t.stack = s.stack.dropLast) (hpc : t.pc ∈ s.stack)

/-- A fatal condition leaves memory, stack and PC. -/
theorem Effect.of_raise (s : State) (f : Fault) : Effect s (s.raise f) := .plain rfl rfl (.inl rfl)

/-- A memory instruction has the effect of its completed state, or raises. -/
theorem Effect.of_withTransfer {s t done : State} {count : Nat} {i : Instr}
    (h : s.withTransfer count i done = .next t) (hdone : Effect s done) : Effect s t := by
  rcases State.withTransfer_cases h with ⟨-, rfl⟩ | ⟨-, -, rfl⟩
  · exact hdone
  · exact .of_raise s _

/-- Taking a skip adds 4 to PC, not taking it 2 (R204). -/
theorem Effect.of_skipIf (s : State) (c : Bool) : Effect s (s.skipIf c) := by
  cases c
  · exact .plain rfl rfl (.inr (.inl rfl))
  · exact .plain rfl rfl (.inr (.inr (.inl rfl)))

/-- An address field of 12 bits lies inside memory. -/
theorem addressOperand_toNat_le (nnn : BitVec 12) : (addressOperand nnn).toNat ≤ 0xFFF := by
  unfold addressOperand
  bv_omega

/-- Every instruction treats memory, stack and PC in one of the four ways. -/
theorem exec_effect {i : Instr} {s t : State} (h : exec i s = .next t) : Effect s t := by
  cases i
  case call nnn =>
    simp only [exec, execCall] at h
    split at h <;> cases h
    · exact .call rfl ‹_› rfl (addressOperand_toNat_le nnn)
    · exact .of_raise s _
  case ret =>
    simp only [exec, execRet] at h
    split at h <;> cases h
    · exact .of_raise s _
    · exact .ret rfl rfl (List.mem_of_getLast? ‹_›)
  case jp nnn => cases h; exact .plain rfl rfl (.inr (.inr (.inr (addressOperand_toNat_le nnn))))
  case jpV0 nnn =>
    simp only [exec, execJpV0] at h
    split at h <;> cases h
    · exact .of_raise s _
    · exact .plain rfl rfl (.inr (.inr (.inr (by simp only [BitVec.toNat_ofNat]; omega))))
  case seImm | sneImm | seReg | sneReg | skp | sknp => cases h; exact .of_skipIf s _
  case drn | ldVxMem => exact .of_withTransfer h (.plain rfl rfl (.inr (.inl rfl)))
  case ldB | ldMemVx => exact .of_withTransfer h (.store _ _ rfl rfl rfl)
  case ldVxK => cases h; exact .plain rfl rfl (.inl rfl)
  case addI =>
    simp only [exec, execAddI] at h
    split at h <;> cases h <;> exact .plain rfl rfl (.inr (.inl rfl))
  all_goals (cases h; exact .plain rfl rfl (.inr (.inl rfl)))

/-! ### A step keeps the invariant -/

/-- A fetched instruction keeps the bounds of the invariant, and a core it stops replays. -/
theorem State.Inv.of_effect {s t : State} (hs : s.Inv) (hp : s.pc.toNat + 1 ≤ 0xFFF) (he : Effect s t)
    (hreplay : t.run ≠ .running → step { t with run := .running } = .next t) : t.Inv := by
  obtain ⟨hmem, hdepth, hret, -, -⟩ := hs
  simp only [State.sp] at hdepth
  have h2 : (s.pc + 2).toNat ≤ 0x1000 := by bv_omega
  have h4 : (s.pc + 4).toNat ≤ 0x1002 := by bv_omega
  cases he with
  | plain em es ep =>
    have hpc : t.pc.toNat ≤ 0x1002 := by
      rcases ep with e | e | e | e
      · rw [e]; omega
      · rw [e]; omega
      · rw [e]; exact h4
      · omega
    exact ⟨em ▸ hmem, by simpa [State.sp, es] using hdepth, es ▸ hret, hpc, hreplay⟩
  | store base bytes em es ep =>
    exact ⟨em ▸ Memory.writeBytes_wf _ hmem _ _, by simpa [State.sp, es] using hdepth, es ▸ hret,
      by rw [ep]; omega, hreplay⟩
  | call em hlt es ep =>
    refine ⟨em ▸ hmem, by simp only [State.sp] at hlt; simp [State.sp, es]; omega, fun a ha => ?_, by omega, hreplay⟩
    rw [es, List.mem_append, List.mem_singleton] at ha
    rcases ha with ha | rfl
    · exact hret a ha
    · exact h2
  | ret em es ep =>
    refine ⟨em ▸ hmem, by simp [State.sp, es]; omega, fun a ha => ?_, ?_, hreplay⟩
    · exact hret a (List.mem_of_mem_dropLast (es ▸ ha))
    · have := hret _ ep
      omega

/-- A waiting core stands at the instruction it fetched, so its PC is inside memory (R50). -/
theorem State.Inv.pc_of_awaiting {s : State} (hs : s.Inv) {x : RegIndex} (hx : s.run = .awaitingKey x) :
    s.pc.toNat + 1 ≤ 0xFFF := by
  by_contra hp
  have hfetch := step_fetchFault { s with run := .running } rfl hp
  rw [hs.stopped_replays (by simp [hx])] at hfetch
  have hrun := congrArg State.run (Host.Outcome.next.inj hfetch)
  simp [hx] at hrun

/-- A core that a step of a running core stopped replays that step. -/
theorem step_replays {s t : State} (hr : s.run = .running) (h : step s = .next t) (hstop : t.run ≠ .running) :
    step { t with run := .running } = .next t := by
  have e : { t with run := .running } = s := by
    rw [step_eq_of_stops hr h hstop, ← hr]
  rw [e, h]

/-- A fatal condition raised by the step of a running core keeps the invariant. -/
theorem State.Inv.raise {s : State} (hs : s.Inv) {f : Fault} (hr : s.run = .running)
    (h : step s = .next (s.raise f)) : (s.raise f).Inv :=
  ⟨hs.memory_canonical, hs.depth_bounded, hs.returns_bounded, hs.pc_bounded, step_replays hr h⟩

/-- A step of a waiting core keeps the invariant. -/
theorem State.Inv.awaitKey {s : State} (hs : s.Inv) {x : RegIndex} (hx : s.run = .awaitingKey x) :
    (s.awaitKey x).Inv := by
  rcases s.awaitKey_cases x with ⟨e, -⟩ | ⟨k, -, -, e⟩
  · rwa [e]
  · rw [e]
    exact hs.of_effect (hs.pc_of_awaiting hx) (.plain rfl rfl (.inr (.inl rfl))) fun h => absurd rfl h

/-- Every step keeps the invariant. -/
theorem State.Inv.step {s t : State} (hs : s.Inv) (h : step s = .next t) : t.Inv := by
  rcases step_cases h with ⟨x, hx, rfl⟩ | ⟨hr, -, rfl⟩ | ⟨w, hr, -, -, rfl⟩ | ⟨i, hr, hp, -, hi⟩
  · exact hs.awaitKey hx
  · exact hs.raise hr h
  · exact hs.raise hr h
  · exact hs.of_effect hp (exec_effect hi) (step_replays hr h)

/-! ### Timers and keypad do not decide whether a core stops -/

/-- `s` with other timers and another keypad: what `tick_timers` and `set_keys` write. -/
def State.withDevices (s : State) (dt st : Byte) (keys : Keypad) : State := { s with dt := dt, st := st, keys := keys }

theorem State.tickTimers_eq_withDevices (s : State) :
    s.tickTimers = s.withDevices (tickTimer s.dt) (tickTimer s.st) s.keys := rfl

theorem State.setKeys_eq_withDevices (s : State) (k : Keypad) : s.setKeys k = s.withDevices s.dt s.st k := rfl

section
variable (dt st : Byte) (keys : Keypad)

/-- A memory instruction checks its transfer alike whatever the timers and the keypad. -/
theorem State.withTransfer_withDevices {s t done : State} {count : Nat} {i : Instr}
    (h : s.withTransfer count i done = .next t) :
    (s.withDevices dt st keys).withTransfer count i (done.withDevices dt st keys) = .next (t.withDevices dt st keys) := by
  rcases State.withTransfer_cases h with ⟨hb, rfl⟩ | ⟨h0, hb, rfl⟩
  · exact State.withTransfer_inBounds _ _ _ _ hb
  · exact State.withTransfer_outOfBounds _ _ _ _ h0 hb

/-- An instruction that changes the run state does so whatever the timers and the keypad. -/
theorem exec_withDevices_of_run_ne {i : Instr} {s t : State} (h : exec i s = .next t) (hstop : t.run ≠ s.run) :
    exec i (s.withDevices dt st keys) = .next (t.withDevices dt st keys) := by
  cases i
  case call nnn =>
    simp only [exec, execCall] at h
    split at h <;> cases h
    · exact absurd rfl hstop
    · exact if_neg ‹_›
  case ret =>
    simp only [exec, execRet] at h
    split at h <;> cases h
    · next hnone => simp only [exec, execRet, State.withDevices, hnone]; rfl
    · exact absurd rfl hstop
  case jpV0 nnn =>
    simp only [exec, execJpV0] at h
    split at h <;> cases h
    · exact if_pos ‹_›
    · exact absurd rfl hstop
  case drn | ldB | ldMemVx | ldVxMem => exact State.withTransfer_withDevices dt st keys h
  case ldVxK => cases h; rfl
  case addI =>
    simp only [exec, execAddI] at h
    split at h <;> cases h <;> exact absurd rfl hstop
  all_goals (cases h; exact absurd rfl hstop)

/-- A step that stops a running core stops it whatever the timers and the keypad. -/
theorem step_withDevices_of_stops {s t : State} (hr : s.run = .running) (h : step s = .next t)
    (hstop : t.run ≠ .running) : step (s.withDevices dt st keys) = .next (t.withDevices dt st keys) := by
  have hr' : (s.withDevices dt st keys).run = .running := hr
  rcases step_cases h with ⟨x, hx, -⟩ | ⟨-, hp, rfl⟩ | ⟨w, -, hp, hd, rfl⟩ | ⟨i, -, hp, hd, hi⟩
  · simp [hr] at hx
  · exact step_fetchFault _ hr' hp
  · exact step_invalid _ w hr' hp hd
  · rw [step_instr _ i hr' hp hd]
    exact exec_withDevices_of_run_ne dt st keys hi (hr ▸ hstop)

/-- Writing the timers and the keypad keeps the invariant. -/
theorem State.Inv.withDevices {s : State} (hs : s.Inv) : (s.withDevices dt st keys).Inv :=
  ⟨hs.memory_canonical, hs.depth_bounded, hs.returns_bounded, hs.pc_bounded, fun hstop =>
    step_withDevices_of_stops dt st keys (s := { s with run := .running }) rfl (hs.stopped_replays hstop) hstop⟩

end

/-- A tick keeps the invariant (R360). -/
theorem State.Inv.tickTimers {s : State} (hs : s.Inv) : s.tickTimers.Inv :=
  s.tickTimers_eq_withDevices ▸ hs.withDevices _ _ _

/-- Setting the keypad keeps the invariant (R363). -/
theorem State.Inv.setKeys {s : State} (hs : s.Inv) (k : Keypad) : (s.setKeys k).Inv :=
  s.setKeys_eq_withDevices k ▸ hs.withDevices _ _ _

/-! ### Schedules -/

/-- A successful load meets the invariant, whatever the state before (R382). -/
theorem State.loaded_inv (s : State) (rom : List Byte) : (s.loaded rom).Inv where
  memory_canonical := Memory.writeBytes_wf _ Memory.initial_wf _ _
  depth_bounded := Nat.zero_le 16
  returns_bounded := fun a ha => absurd ha List.not_mem_nil
  pc_bounded := by show 0x200 ≤ 0x1002; decide
  stopped_replays := fun h => absurd rfl h

/-- A load keeps the invariant: one that does not fit changes nothing (R383). -/
theorem State.Inv.load {s : State} (hs : s.Inv) (rom : List Byte) : (s.load rom).1.Inv := by
  unfold State.load
  split
  · exact hs
  · exact s.loaded_inv rom

/-- The `step` transaction keeps the invariant: one without a next state changes nothing (R131). -/
theorem State.Inv.stepTransaction {s : State} (hs : s.Inv) : s.stepTransaction.1.Inv := by
  unfold State.stepTransaction
  split
  · exact hs.step ‹_›
  · exact hs
  · exact hs

/-- Every transaction keeps the invariant (R10). -/
theorem State.Inv.perform {s : State} (hs : s.Inv) (a : Transaction) : (s.perform a).1.Inv := by
  cases a with
  | load rom => exact hs.load rom
  | step => exact hs.stepTransaction
  | tickTimers => exact hs.tickTimers
  | setKeys k => exact hs.setKeys k
  | framebufferSnapshot => exact hs
  | shouldBeep => exact hs

/-- What every transaction keeps, every schedule keeps (R361). -/
theorem runSchedule_induction {P : State → Prop} (hP : ∀ s a, P s → P (s.perform a).1) {s : State} (hs : P s)
    (schedule : List Transaction) : P (runSchedule s schedule) := by
  induction schedule generalizing s with
  | nil => exact hs
  | cons a rest ih => exact ih (hP s a hs)

/-- Settles O59, by induction on the schedule: every transaction keeps the invariant. -/
theorem everyScheduleKeepsTheInvariant : Obligations.EveryScheduleKeepsTheInvariant := by
  intro s schedule hs
  exact runSchedule_induction (fun _ a h => h.perform a) hs schedule

end Sys2Proof.Machine
end

section
/-! SUPPORT. Proofs of the family 10_state: the invariant at reset and over a step (O57, O58), the state after reset (O56), which
registers, index, stack and screen an instruction writes (O17, O20), and what a register it does not read (O18) and the keypad
(O23) can influence. -/

namespace Sys2Proof.Machine

/-! ### The invariant at reset and over a step -/

/-- Settles O58: the step lemma of the invariant, by the inversion of a step. -/
theorem stepKeepsTheInvariant : Obligations.StepKeepsTheInvariant := fun _ _ hs h => hs.step h

/-- A load of an empty ROM gives the reset core its own state (R55, R382). -/
theorem State.loaded_nil_reset : State.reset.loaded [] = State.reset := rfl

/-- Settles O57: the reset core is a loaded core, and every loaded core meets the invariant. -/
theorem resetMeetsTheInvariant : Obligations.ResetMeetsTheInvariant := by
  have h := State.loaded_inv State.reset []
  rwa [State.loaded_nil_reset] at h

/-! ### The state after reset (R55) -/

/-- Outside the font, memory resets to zero (R55, R78). -/
theorem resetByte_outside_font {a : Nat} (h : a < 0x050 ∨ 0x0A0 ≤ a) : resetByte a = 0 := by
  unfold resetByte fontBase
  exact if_neg (by omega)

/-- A load of an empty ROM into the reset core succeeds and changes nothing. -/
theorem State.load_nil_reset : State.reset.load [] = (State.reset, .ok) := by
  unfold State.load
  rw [if_neg (by decide), State.loaded_nil_reset]

/-- Settles O56, field by field; the font is evaluated, the rest of memory is `resetByte` outside it. -/
theorem resetState : Obligations.ResetState := by
  refine ⟨fun r => ?_, rfl, rfl, rfl, rfl, rfl, Framebuffer.get_off, fun k => ?_, rfl, ?font, ?font', fun a ha => ?_,
    State.load_nil_reset, rfl⟩
  case font | font' => decide
  · simp [State.getV, State.reset]
  · simp [State.reset, Keypad.released]
  · exact resetByte_outside_font ha

/-! ### The instructions that branch on the state: one equation per branch -/

section
variable {s : State}

theorem exec_call_push {nnn : BitVec 12} (h : s.sp < 16) :
    exec (.call nnn) s = .next { s.push (s.pc + 2) with pc := addressOperand nnn } := if_pos h

theorem exec_call_overflow {nnn : BitVec 12} (h : ¬ s.sp < 16) :
    exec (.call nnn) s = .next (s.raise (.stackOverflow s.pc s.sp)) := if_neg h

theorem exec_ret_underflow (h : s.stack.getLast? = none) :
    exec .ret s = .next (s.raise (.stackUnderflow s.pc s.sp)) := by
  simp only [exec, execRet, h]

theorem exec_ret_pop {a : Word} (h : s.stack.getLast? = some a) : exec .ret s = .next { s.drop with pc := a } := by
  simp only [exec, execRet, h]

theorem exec_jpV0_outside {nnn : BitVec 12} (h : s.jumpV0Target nnn > 0xFFF) :
    exec (.jpV0 nnn) s =
      .next (s.raise (.memoryOutOfBounds (s.jumpV0Target nnn) (some (encode (.jpV0 nnn))))) := if_pos h

theorem exec_jpV0_inside {nnn : BitVec 12} (h : ¬ s.jumpV0Target nnn > 0xFFF) :
    exec (.jpV0 nnn) s = .next { s with pc := BitVec.ofNat 16 (s.jumpV0Target nnn) } := if_neg h

theorem exec_addI_flag {x : RegIndex} (h : s.dialect.addISetsVF = true) :
    exec (.addI x) s =
      .next ({ s.advance with i := BitVec.ofNat 16 (s.indexSum x) }.setFlag (indexOverflowFlag (s.indexSum x))) :=
  if_pos h

theorem exec_addI_noFlag {x : RegIndex} (h : ¬ s.dialect.addISetsVF = true) :
    exec (.addI x) s = .next { s.advance with i := BitVec.ofNat 16 (s.indexSum x) } := if_neg h

end

/-! ### What an instruction leaves unchanged (R32, R41, R42, R44) -/

/-- A register write leaves every other register. -/
theorem State.getV_setV_ne {s : State} {r x : RegIndex} (b : Byte) (h : r ≠ x) : (s.setV x b).getV r = s.getV r := by
  rw [State.getV_setV, if_neg h]

/-- What a fatal condition and the completed state of a memory instruction both keep, the instruction keeps. -/
theorem State.withTransfer_keeps {α : Type} (g : State → α) {s t done : State} {count : Nat} {i : Instr}
    (h : s.withTransfer count i done = .next t) (hraise : ∀ f, g (s.raise f) = g s) (hdone : g done = g s) :
    g t = g s := by
  rcases State.withTransfer_cases h with ⟨-, rfl⟩ | ⟨-, -, rfl⟩
  · exact hdone
  · exact hraise _

/-- Settles O17, by the table of written registers: an instruction writes the registers of its row and no other. -/
theorem onlyListedRegistersChange : Obligations.OnlyListedRegistersChange := by
  intro i s t r h hr
  cases i
  case ldImm | addImm | ldReg | orReg | andReg | xorReg | rnd | ldVxDT =>
    have hx := List.ne_of_not_mem_cons hr
    cases h
    exact State.getV_setV_ne _ hx
  case addReg | sub | subn | shr | shl =>
    have hx := List.ne_of_not_mem_cons hr
    have hF := List.ne_of_not_mem_cons (List.not_mem_of_not_mem_cons hr)
    cases h
    exact (State.getV_setV_ne _ hF).trans (State.getV_setV_ne _ hx)
  case drn =>
    have hF := List.ne_of_not_mem_cons hr
    exact State.withTransfer_keeps (·.getV r) h (fun _ => rfl) (State.getV_setV_ne _ hF)
  case ldVxMem x =>
    have hx : ¬ r ≤ x := by simpa [writtenRegs] using hr
    exact State.withTransfer_keeps (·.getV r) h (fun _ => rfl) (by simp [hx])
  case ldB | ldMemVx => exact State.withTransfer_keeps (·.getV r) h (fun _ => rfl) rfl
  case addI x =>
    by_cases hd : s.dialect.addISetsVF = true
    · have hF : r ≠ 15 := by simpa [writtenRegs, hd] using hr
      rw [exec_addI_flag hd] at h
      cases h
      exact State.getV_setV_ne _ hF
    · rw [exec_addI_noFlag hd] at h
      cases h
      rfl
  case call =>
    simp only [exec, execCall] at h
    split at h <;> cases h <;> rfl
  case ret =>
    simp only [exec, execRet] at h
    split at h <;> cases h <;> rfl
  case jpV0 =>
    simp only [exec, execJpV0] at h
    split at h <;> cases h <;> rfl
  all_goals (cases h; rfl)

/-- Settles O20. A writer contradicts its own clause and keeps what the other clauses speak of; an instruction with several
results keeps all of it where it raises; every other instruction keeps all of it. -/
theorem onlyTheirWritersChangeIndexStackAndScreen : Obligations.OnlyTheirWritersChangeIndexStackAndScreen := by
  intro i s t h
  cases i
  case call nnn =>
    simp only [exec, execCall] at h
    split at h <;> cases h <;> simp
  case ret =>
    simp only [exec, execRet] at h
    split at h <;> cases h <;> simp
  case jpV0 nnn =>
    simp only [exec, execJpV0] at h
    split at h <;> cases h <;> simp
  case addI x =>
    simp only [exec, execAddI] at h
    split at h <;> cases h <;> simp
  case drn | ldB | ldMemVx | ldVxMem => rcases State.withTransfer_cases h with ⟨-, rfl⟩ | ⟨-, -, rfl⟩ <;> simp
  all_goals (cases h; simp)

/-! ### Two runs of one instruction side by side -/

/-- Both results are next states, and these are related. -/
def BothNext (R : State → State → Prop) (p q : Result) : Prop := ∃ t u, p = .next t ∧ q = .next u ∧ R t u

/-- A memory instruction run from two states with one index raises from both or completes from both. -/
theorem BothNext.withTransfer {R : State → State → Prop} {s s' done done' : State} {count : Nat} {i : Instr}
    (hi : s'.i = s.i) (hraise : ∀ f, R (s.raise f) (s'.raise f)) (hdone : R done done') :
    BothNext R (s.withTransfer count i done) (s'.withTransfer count i done') := by
  unfold State.withTransfer
  rw [hi]
  cases lowestOutOfBounds s.i.toNat count with
  | none => exact ⟨_, _, rfl, rfl, hdone⟩
  | some a => exact ⟨_, _, rfl, rfl, hraise _⟩

/-! ### The keypad (R45, R139, D16) -/

/-- From a state with another keypad, every instruction but `SKP` and `SKNP` has the same next state with that keypad. -/
theorem exec_setKeys {i : Instr} (s : State) (k : Keypad) (hskp : ∀ x, i ≠ .skp x) (hsknp : ∀ x, i ≠ .sknp x) :
    BothNext (fun t u => u = t.setKeys k) (exec i s) (exec i (s.setKeys k)) := by
  cases i
  case skp x => exact absurd rfl (hskp x)
  case sknp x => exact absurd rfl (hsknp x)
  case call nnn =>
    by_cases h : s.sp < 16
    · exact ⟨_, _, exec_call_push h, exec_call_push (s := s.setKeys k) h, rfl⟩
    · exact ⟨_, _, exec_call_overflow h, exec_call_overflow (s := s.setKeys k) h, rfl⟩
  case ret =>
    cases h : s.stack.getLast? with
    | none => exact ⟨_, _, exec_ret_underflow h, exec_ret_underflow (s := s.setKeys k) h, rfl⟩
    | some a => exact ⟨_, _, exec_ret_pop h, exec_ret_pop (s := s.setKeys k) h, rfl⟩
  case jpV0 nnn =>
    by_cases h : s.jumpV0Target nnn > 0xFFF
    · exact ⟨_, _, exec_jpV0_outside h, exec_jpV0_outside (s := s.setKeys k) h, rfl⟩
    · exact ⟨_, _, exec_jpV0_inside h, exec_jpV0_inside (s := s.setKeys k) h, rfl⟩
  case addI x =>
    by_cases h : s.dialect.addISetsVF = true
    · exact ⟨_, _, exec_addI_flag h, exec_addI_flag (s := s.setKeys k) h, rfl⟩
    · exact ⟨_, _, exec_addI_noFlag h, exec_addI_noFlag (s := s.setKeys k) h, rfl⟩
  case drn | ldB | ldMemVx | ldVxMem => exact .withTransfer rfl (fun _ => rfl) rfl
  all_goals exact ⟨_, _, rfl, rfl, rfl⟩

/-- Settles O23: no other meaning looks at the keypad snapshot. -/
theorem keypadInfluencesOnlyKeySkips : Obligations.KeypadInfluencesOnlyKeySkips := by
  intro i s t k hskp hsknp h
  obtain ⟨t', _, ht, hu, rfl⟩ := exec_setKeys s k hskp hsknp
  obtain rfl : t' = t := Host.Outcome.next.inj (ht.symm.trans h)
  exact hu

/-! ### A register that is not read (R32) -/

/-- Two states differ at most in Vr. -/
def State.AgreeBut (r : RegIndex) (t u : State) : Prop := ∃ b, u = t.setV r b

/-- Two writes of one register are the second; writes of different registers commute. -/
theorem State.setV_setV (s : State) (r x : RegIndex) (b c : Byte) :
    (s.setV r b).setV x c = (s.setV x c).setV r (if r = x then c else b) := by
  by_cases h : r = x
  · subst h
    simp [State.setV]
  · have hne : r.val ≠ x.val := fun e => h (Fin.ext e)
    simp [State.setV, h, Vector.set_comm _ _ hne]

theorem State.AgreeBut.setV {r : RegIndex} {t u : State} (h : t.AgreeBut r u) (x : RegIndex) (c : Byte) :
    (t.setV x c).AgreeBut r (u.setV x c) := by
  obtain ⟨b, rfl⟩ := h
  exact ⟨_, t.setV_setV r x b c⟩

theorem State.AgreeBut.advance {r : RegIndex} {t u : State} (h : t.AgreeBut r u) : t.advance.AgreeBut r u.advance := by
  obtain ⟨b, rfl⟩ := h
  exact ⟨b, rfl⟩

/-- States that differ at most in Vr are the same once Vr is cleared. -/
theorem State.AgreeBut.setV_zero_eq {r : RegIndex} {t u : State} (h : t.AgreeBut r u) : t.setV r 0 = u.setV r 0 := by
  obtain ⟨b, rfl⟩ := h
  rw [State.setV_setV]
  simp [State.setV]

/-- Writing one value into Vx keeps two states alike. -/
theorem BothNext.writeVx {r : RegIndex} {s s' : State} (h : s.AgreeBut r s') (x : RegIndex) (c : Byte) :
    BothNext (State.AgreeBut r) (s.writeVx x c) (s'.writeVx x c) :=
  ⟨_, _, rfl, rfl, (h.setV x c).advance⟩

/-- Writing one value into Vx and one flag into VF keeps two states alike. -/
theorem BothNext.writeVxFlag {r : RegIndex} {s s' : State} (h : s.AgreeBut r s') (x : RegIndex) (c flag : Byte) :
    BothNext (State.AgreeBut r) (s.writeVxFlag x c flag) (s'.writeVxFlag x c flag) :=
  ⟨_, _, rfl, rfl, ((h.setV x c).setV 15 flag).advance⟩

section
variable (s : State) (r : RegIndex) (b : Byte)

/-- The shift reads the register the dialect names. -/
theorem State.shiftOperand_setV {x y : RegIndex} (h : r ∉ if s.dialect.shiftSource = .vx then [x] else [y]) :
    (s.setV r b).shiftOperand x y = s.shiftOperand x y := by
  unfold State.shiftOperand
  cases hd : s.dialect.shiftSource <;> simp only [hd, State.setV_dialect, if_true, reduceCtorEq, if_false] at h ⊢
  all_goals exact State.getV_setV_ne b (List.ne_of_not_mem_cons h).symm

/-- The block store reads V0 to Vx. -/
theorem State.registersUpTo_setV {x : RegIndex} (h : ¬ r ≤ x) : (s.setV r b).registersUpTo x = s.registersUpTo x := by
  refine List.map_congr_left fun j hj => State.getV_setV_ne b ?_
  rintro rfl
  have := List.mem_range.mp hj
  rw [Fin.le_def, Fin.val_ofNat] at h
  omega

/-- The block load writes V0 to Vx, whatever they held. -/
theorem State.agreeBut_setRegistersUpTo (x : RegIndex) (f : Nat → Byte) :
    (s.setRegistersUpTo x f).AgreeBut r ((s.setV r b).setRegistersUpTo x f) := by
  refine ⟨if r ≤ x then f r.val else b, ?_⟩
  have hv : ((s.setV r b).setRegistersUpTo x f).v =
      ((s.setRegistersUpTo x f).setV r (if r ≤ x then f r.val else b)).v := by
    refine registers_ext _ _ fun q => ?_
    simp only [← State.getV_eq, State.getV_setRegistersUpTo, State.getV_setV]
    by_cases hq : q = r <;> simp [hq]
  exact congrArg (fun v => { s with v := v }) hv

/-- An instruction run after a change of a register it does not read differs at most in that register. -/
theorem exec_setV_unread {i : Instr} (hr : r ∉ readRegs s.dialect i) :
    BothNext (State.AgreeBut r) (exec i s) (exec i (s.setV r b)) := by
  have hs : s.AgreeBut r (s.setV r b) := ⟨b, rfl⟩
  have read {x : RegIndex} {l : List RegIndex} (h : r ∉ x :: l) : (s.setV r b).getV x = s.getV x :=
    State.getV_setV_ne b (List.ne_of_not_mem_cons h).symm
  have read₂ {x y : RegIndex} {l : List RegIndex} (h : r ∉ x :: y :: l) : (s.setV r b).getV y = s.getV y :=
    read (List.not_mem_of_not_mem_cons h)
  cases i
  case ldImm | ldVxDT => exact .writeVx hs _ _
  case rnd => exact .writeVx (s := s.countDraw) ⟨b, rfl⟩ _ _
  case addImm | ldReg =>
    simp only [exec, execAddImm, execLdReg, read hr]
    exact .writeVx hs _ _
  case orReg | andReg | xorReg =>
    simp only [exec, execOrReg, execAndReg, execXorReg, read hr, read₂ hr]
    exact .writeVx hs _ _
  case addReg | sub | subn =>
    simp only [exec, execAddReg, execSub, execSubn, read hr, read₂ hr]
    exact .writeVxFlag hs _ _ _
  case shr | shl =>
    simp only [exec, execShr, execShl, s.shiftOperand_setV r b hr]
    exact .writeVxFlag hs _ _ _
  case seImm | sneImm | skp | sknp =>
    simp only [exec, execSeImm, execSneImm, execSkp, execSknp, State.keyOperand, read hr]
    exact ⟨_, _, rfl, rfl, b, rfl⟩
  case seReg | sneReg =>
    simp only [exec, execSeReg, execSneReg, read hr, read₂ hr]
    exact ⟨_, _, rfl, rfl, b, rfl⟩
  case ldDTVx | ldSTVx | ldF =>
    simp only [exec, execLdDTVx, execLdSTVx, execLdF, read hr]
    exact ⟨_, _, rfl, rfl, b, rfl⟩
  case addI x =>
    have hsum : (s.setV r b).indexSum x = s.indexSum x := congrArg (s.i.toNat + ·.toNat) (read hr)
    by_cases h : s.dialect.addISetsVF = true
    · refine ⟨_, _, exec_addI_flag h, exec_addI_flag (s := s.setV r b) h, ?_⟩
      rw [hsum]
      exact State.AgreeBut.setV ⟨b, rfl⟩ 15 _
    · refine ⟨_, _, exec_addI_noFlag h, exec_addI_noFlag (s := s.setV r b) h, ?_⟩
      rw [hsum]
      exact ⟨b, rfl⟩
  case jpV0 nnn =>
    have htarget : (s.setV r b).jumpV0Target nnn = s.jumpV0Target nnn :=
      congrArg (nnn.toNat + ·.toNat) (read hr)
    by_cases h : s.jumpV0Target nnn > 0xFFF
    · refine ⟨_, _, exec_jpV0_outside h, exec_jpV0_outside (htarget ▸ h), ?_⟩
      rw [htarget]
      exact ⟨b, rfl⟩
    · refine ⟨_, _, exec_jpV0_inside h, exec_jpV0_inside (htarget ▸ h), ?_⟩
      rw [htarget]
      exact ⟨b, rfl⟩
  case call nnn =>
    by_cases h : s.sp < 16
    · exact ⟨_, _, exec_call_push h, exec_call_push (s := s.setV r b) h, b, rfl⟩
    · exact ⟨_, _, exec_call_overflow h, exec_call_overflow (s := s.setV r b) h, b, rfl⟩
  case ret =>
    cases h : s.stack.getLast? with
    | none => exact ⟨_, _, exec_ret_underflow h, exec_ret_underflow (s := s.setV r b) h, b, rfl⟩
    | some a => exact ⟨_, _, exec_ret_pop h, exec_ret_pop (s := s.setV r b) h, b, rfl⟩
  case drn x y n =>
    have hdrawn : (s.setV r b).drawn x y n = s.drawn x y n := by
      simp only [State.drawn, read hr, read₂ hr]
      rfl
    refine .withTransfer rfl (fun _ => ⟨b, rfl⟩) ?_
    rw [hdrawn]
    exact (State.AgreeBut.setV ⟨b, rfl⟩ 15 _).advance
  case ldB x =>
    refine .withTransfer rfl (fun _ => ⟨b, rfl⟩) ?_
    rw [read hr]
    exact ⟨b, rfl⟩
  case ldMemVx x =>
    refine .withTransfer rfl (fun _ => ⟨b, rfl⟩) ?_
    rw [s.registersUpTo_setV r b (by simpa [readRegs] using hr)]
    exact ⟨b, rfl⟩
  case ldVxMem x =>
    exact .withTransfer rfl (fun _ => ⟨b, rfl⟩) (s.agreeBut_setRegistersUpTo r b x _).advance
  all_goals exact ⟨_, _, rfl, rfl, b, rfl⟩

end

/-- Settles O18: two states that differ at most in Vr are the same once Vr is cleared. -/
theorem unreadRegistersInfluenceNothing : Obligations.UnreadRegistersInfluenceNothing := by
  intro i s r b hr
  obtain ⟨t, u, ht, hu, hagree⟩ := exec_setV_unread s r b hr
  exact ⟨t, u, ht, hu, hagree.setV_zero_eq⟩

end Sys2Proof.Machine
end

section
/-! SUPPORT. Proofs of the family 20_memory: instruction words in memory (O6) and a fetch outside it (O8), the bytes an instruction
may change (O19), and what a load (O45) and a fetch (O46) read after a block store. -/

namespace Sys2Proof.Machine

/-! ### Words and fetches (R71, R73) -/

/-- Settles O6: joining two bytes is big-endian, whatever they are. -/
theorem instructionWordsAreBigEndian : Obligations.InstructionWordsAreBigEndian :=
  fun m a => toNat_wordOfBytes (m.read a) (m.read (a + 1))

/-- Settles O8: a failed fetch reports the larger of PC and 0x1000, which is PC above 0xFFF and 0x1000 at 0xFFF. -/
theorem fetchOutOfBoundsRaises : Obligations.FetchOutOfBoundsRaises := by
  intro s hr
  refine ⟨fun hp => ?above, fun hp => ?last⟩
  case above =>
    rw [step_fetchFault s hr (by omega), Nat.max_eq_left (by omega)]
    rfl
  case last =>
    rw [step_fetchFault s hr (by omega), Nat.max_eq_right (by omega)]
    rfl

/-! ### What an instruction does to memory (R70, R75) -/

/-- The inversion of an instruction, as to memory: it leaves memory alone, or it is a store and writes its bytes at I. -/
theorem exec_mem_cases {i : Instr} {s t : State} (h : exec i s = .next t) :
    t.mem = s.mem ∨
    (∃ x, i = .ldB x ∧ t.mem = s.mem.writeBytes (s.transferAddress 0) (decimalDigits (s.getV x))) ∨
    (∃ x, i = .ldMemVx x ∧ t.mem = s.mem.writeBytes (s.transferAddress 0) (s.registersUpTo x)) := by
  cases i
  case ldB x =>
    rcases State.withTransfer_cases h with ⟨-, rfl⟩ | ⟨-, -, rfl⟩
    · exact .inr (.inl ⟨x, rfl, rfl⟩)
    · exact .inl rfl
  case ldMemVx x =>
    rcases State.withTransfer_cases h with ⟨-, rfl⟩ | ⟨-, -, rfl⟩
    · exact .inr (.inr ⟨x, rfl, rfl⟩)
    · exact .inl rfl
  case drn | ldVxMem => exact .inl (State.withTransfer_keeps (·.mem) h (fun _ => rfl) rfl)
  case call | ret | jpV0 | addI =>
    simp only [exec, execCall, execRet, execJpV0, execAddI] at h
    split at h <;> cases h <;> exact .inl rfl
  all_goals (cases h; exact .inl rfl)

/-- `LD [I], Vx` stores one byte for each of V0 to Vx (R258). -/
@[simp] theorem State.length_registersUpTo (s : State) (x : RegIndex) : (s.registersUpTo x).length = x.val + 1 := by
  simp [State.registersUpTo]

/-- Settles O19: the two stores write exactly the bytes of `storesTo`, and every other instruction leaves memory alone. -/
theorem onlyStoredBytesChange : Obligations.OnlyStoredBytesChange := by
  intro i s t h
  rcases exec_mem_cases h with hm | ⟨x, rfl, hm⟩ | ⟨x, rfl, hm⟩
  · exact ⟨fun a _ => by rw [hm], fun _ _ => hm⟩
  · refine ⟨fun a ha => ?_, fun hB _ => absurd rfl (hB x)⟩
    rw [hm]
    exact Memory.read_writeBytes_outside _ _ _ a ha
  · refine ⟨fun a ha => ?_, fun _ hV => absurd rfl (hV x)⟩
    rw [hm]
    refine Memory.read_writeBytes_outside _ _ _ a ?_
    rwa [State.length_registersUpTo]

/-! ### Reading what a block store wrote (R76, R84) -/

/-- Byte j of a block store is Vj. -/
theorem State.getD_registersUpTo (s : State) {x : RegIndex} {j : Nat} (hj : j ≤ x.val) :
    (s.registersUpTo x).getD j 0 = s.getV (Fin.ofNat 16 j) := by
  have hlt : j < (s.registersUpTo x).length := by simpa [Nat.lt_succ_iff] using hj
  rw [List.getD_eq_getElem _ _ hlt]
  simp [State.registersUpTo]

section
variable {x : RegIndex} {s t : State} (hb : s.i.toNat + x.val ≤ 0xFFF)
include hb

/-- A block store inside memory writes V0 to Vx at I and moves PC on (R258). -/
theorem exec_ldMemVx_inBounds :
    exec (.ldMemVx x) s =
      .next { s.advance with mem := s.mem.writeBytes (s.transferAddress 0) (s.registersUpTo x) } :=
  s.withTransfer_inBounds _ _ _ (.inr (by omega))

/-- A block load inside memory reads V0 to Vx at I and moves PC on (R260). -/
theorem exec_ldVxMem_inBounds :
    exec (.ldVxMem x) s = .next (s.setRegistersUpTo x fun j => s.mem.read (s.transferAddress j)).advance :=
  s.withTransfer_inBounds _ _ _ (.inr (by omega))

/-- After a block store inside memory, I is the same and the byte at I + j is Vj. -/
theorem read_after_ldMemVx (h : exec (.ldMemVx x) s = .next t) :
    t.i = s.i ∧ ∀ j ≤ x.val, t.mem.read (s.i.toNat + j) = s.getV (Fin.ofNat 16 j) := by
  rw [exec_ldMemVx_inBounds hb] at h
  cases h
  refine ⟨rfl, fun j hj => ?_⟩
  have hread := Memory.read_writeBytes s.mem s.i.toNat (s.registersUpTo x) (s.i.toNat + j)
    (by rw [State.length_registersUpTo]; omega)
  rw [State.length_registersUpTo, if_pos (by omega), Nat.add_sub_cancel_left, s.getD_registersUpTo hj] at hread
  exact hread

end

/-- Settles O45: I is as the store left it, so byte r of the load is byte r of the store. -/
theorem storeThenLoadRestoresRegisters : Obligations.StoreThenLoadRestoresRegisters := by
  intro x s t v hb h
  obtain ⟨hi, hread⟩ := read_after_ldMemVx hb h
  refine ⟨_, exec_ldVxMem_inBounds (s := { t with v := v }) (by rwa [hi]), fun r => ?_⟩
  rw [State.getV_advance, State.getV_setRegistersUpTo]
  by_cases hr : r ≤ x
  · rw [if_pos hr, if_pos hr]
    simp only [State.transferAddress, hi]
    rw [hread r.val hr, Fin.ofNat_val_eq_self]
  · rw [if_neg hr, if_neg hr]
    rfl

/-- Settles O46: both bytes of the fetched word are bytes of the store. -/
theorem storeIsSeenByTheNextFetch : Obligations.StoreIsSeenByTheNextFetch := by
  intro x s t j p hb h hj hp
  obtain ⟨-, hread⟩ := read_after_ldMemVx hb h
  have hfetch : ({ t with pc := p } : State).fetch = .word (t.mem.readWord p.toNat) :=
    State.fetch_inBounds _ (by show p.toNat + 1 ≤ 0xFFF; omega)
  rw [hfetch, hp, Memory.readWord, Nat.add_assoc, hread j (by omega), hread (j + 1) hj]

end Sys2Proof.Machine
end

section
/-! SUPPORT. Proofs of the family 30_encoding: decoding inverts encoding (O2), the invalid words (O5), the decoder follows the
opcode map (O4), what decodes encodes to its word but for the ignored bits (O3), and words written out (O1). -/

namespace Sys2Proof

/-! ### Fields as arithmetic (R104) -/

theorem toNat_opField (w : Word) : (opField w).toNat = w.toNat / 4096 := by
  have h : w.toNat / 4096 < 16 := Nat.div_lt_of_lt_mul w.isLt
  simpa [opField, Nat.shiftRight_eq_div_pow] using h

theorem toNat_nField (w : Word) : (nField w).toNat = w.toNat % 16 := by simp [nField]

theorem toNat_kkField (w : Word) : (kkField w).toNat = w.toNat % 256 := by simp [kkField]

theorem ofNat_eq_xField (w : Word) : Fin.ofNat 16 (w.toNat / 256 % 16) = xField w :=
  Fin.ext (by simp [xField, Nat.shiftRight_eq_div_pow])

theorem ofNat_eq_yField (w : Word) : Fin.ofNat 16 (w.toNat / 16 % 16) = yField w :=
  Fin.ext (by simp [yField, Nat.shiftRight_eq_div_pow])

theorem ofNat_eq_nField (w : Word) : BitVec.ofNat 4 (w.toNat % 16) = nField w :=
  BitVec.eq_of_toNat_eq (by simp [nField])

theorem ofNat_eq_kkField (w : Word) : BitVec.ofNat 8 (w.toNat % 256) = kkField w :=
  BitVec.eq_of_toNat_eq (by simp [kkField])

theorem ofNat_eq_nnnField (w : Word) : BitVec.ofNat 12 (w.toNat % 4096) = nnnField w :=
  BitVec.eq_of_toNat_eq (by simp [nnnField])

/-! ### Masked words (the mask column of R107) -/

/-- A mask keeps the fields on which it is all ones. -/
theorem extractLsb'_and_of_ones {k : Nat} (w m : Word) (s : Nat) (h : m.extractLsb' s k = BitVec.allOnes k) :
    (w &&& m).extractLsb' s k = w.extractLsb' s k := by
  rw [BitVec.extractLsb'_and, h, BitVec.and_allOnes]

/-- A mask clears the fields on which it is zero. -/
theorem extractLsb'_and_of_zeros {k : Nat} (w m : Word) (s : Nat) (h : m.extractLsb' s k = 0#k) :
    (w &&& m).extractLsb' s k = 0#k := by
  rw [BitVec.extractLsb'_and, h, BitVec.and_zero]

theorem and_F000_eq_encodeAddress (w : Word) : w &&& 0xF000 = encodeAddress (opField w) 0 := by
  rw [← encodeAddress_fields (w &&& 0xF000)]
  simp (disch := decide) only [opField, nnnField, extractLsb'_and_of_ones, extractLsb'_and_of_zeros]
  rfl

theorem and_F00F_eq_encodeRegs (w : Word) : w &&& 0xF00F = encodeRegs (opField w) 0 0 (nField w) := by
  rw [← encodeRegs_fields (w &&& 0xF00F)]
  simp (disch := decide) only [opField, xField, yField, nField, extractLsb'_and_of_ones, extractLsb'_and_of_zeros]
  rfl

theorem and_F0FF_eq_encodeByte (w : Word) : w &&& 0xF0FF = encodeByte (opField w) 0 (kkField w) := by
  rw [← encodeByte_fields (w &&& 0xF0FF)]
  simp (disch := decide) only [opField, xField, kkField, extractLsb'_and_of_ones, extractLsb'_and_of_zeros]
  rfl

theorem and_FFF0_eq_encodeRegs (w : Word) : w &&& 0xFFF0 = encodeRegs (opField w) (xField w) (yField w) 0 := by
  rw [← encodeRegs_fields (w &&& 0xFFF0)]
  simp (disch := decide) only [opField, xField, yField, nField, extractLsb'_and_of_ones, extractLsb'_and_of_zeros]
  rfl

section
variable {w p : Word}

/-- A row that looks at `op` alone. -/
theorem and_F000_eq_iff (hp : p &&& 0xF000 = p) : w &&& 0xF000 = p ↔ (opField w).toNat = p.toNat / 4096 := by
  rw [← toNat_opField, ← BitVec.toNat_eq, ← hp, and_F000_eq_encodeAddress, and_F000_eq_encodeAddress,
    opField_encodeAddress]
  exact ⟨fun h => by simpa using congrArg opField h, fun h => by rw [h]⟩

/-- A row that looks at `op` and `n`. -/
theorem and_F00F_eq_iff (hp : p &&& 0xF00F = p) :
    w &&& 0xF00F = p ↔ (opField w).toNat = p.toNat / 4096 ∧ (nField w).toNat = p.toNat % 16 := by
  rw [← toNat_opField, ← toNat_nField, ← BitVec.toNat_eq, ← BitVec.toNat_eq, ← hp, and_F00F_eq_encodeRegs,
    and_F00F_eq_encodeRegs, opField_encodeRegs, nField_encodeRegs]
  exact ⟨fun h => ⟨by simpa using congrArg opField h, by simpa using congrArg nField h⟩, fun ⟨h, h'⟩ => by rw [h, h']⟩

/-- A row that looks at `op` and `kk`. -/
theorem and_F0FF_eq_iff (hp : p &&& 0xF0FF = p) :
    w &&& 0xF0FF = p ↔ (opField w).toNat = p.toNat / 4096 ∧ (kkField w).toNat = p.toNat % 256 := by
  rw [← toNat_opField, ← toNat_kkField, ← BitVec.toNat_eq, ← BitVec.toNat_eq, ← hp, and_F0FF_eq_encodeByte,
    and_F0FF_eq_encodeByte, opField_encodeByte, kkField_encodeByte]
  exact ⟨fun h => ⟨by simpa using congrArg opField h, by simpa using congrArg kkField h⟩, fun ⟨h, h'⟩ => by rw [h, h']⟩

end

/-! ### Decoding an encoded instruction (R101 to R107) -/

theorem wf_sys_iff {nnn : BitVec 12} : (Instr.sys nnn).wf = true ↔ lowByte nnn ≠ 0xE0 ∧ lowByte nnn ≠ 0xEE := by
  simp [Instr.wf, sysOperandOk]

/-- The fields the encoder wrote select the instruction's own row of the decoder. -/
theorem decodeWord_encode {i : Instr} (h : i.wf = true) : decodeWord (encode i) = .instr i := by
  cases i
  case sys nnn =>
    obtain ⟨hcls, hret⟩ := wf_sys_iff.1 h
    have hgroup : decodeWord (encode (.sys nnn)) = decodeGroup0 (encodeAddress 0x0 nnn) := by simp [encode, decodeWord]
    rw [hgroup, decodeGroup0, kkField_encodeAddress, if_neg hcls, if_neg hret, nnnField_encodeAddress]
  case cls | ret => decide
  case jp | call | ldI | jpV0 | seImm | sneImm | ldImm | addImm | rnd | seReg | sneReg | drn => simp [encode, decodeWord]
  case ldReg | orReg | andReg | xorReg | addReg | sub | shr | subn | shl => simp [encode, decodeWord, decodeGroup8]
  case skp | sknp => simp [encode, decodeWord, decodeGroupE]
  all_goals simp [encode, decodeWord, decodeGroupF]

/-- Settles O2: on the word by the fields the encoder wrote, on bytes because the two bytes join to that word. -/
theorem decodeInvertsEncode : Obligations.DecodeInvertsEncode := by
  intro i h
  refine ⟨decodeWord_encode h, fun rest => ?_⟩
  simp [encodeBytes, decodeBytes, decodeWord_encode h]

/-! ### The words of no instruction (R108) -/

section
variable (w : Word)

theorem decodeGroup0_ne_invalid (u : Word) : decodeGroup0 w ≠ .invalid u := by
  unfold decodeGroup0
  split_ifs <;> simp

theorem decodeGroup8_invalid_iff :
    decodeGroup8 w = .invalid w ↔ (nField w).toNat ∉ [0x0, 0x1, 0x2, 0x3, 0x4, 0x5, 0x6, 0x7, 0xE] := by
  unfold decodeGroup8
  split <;> simp_all

theorem decodeGroupE_invalid_iff : decodeGroupE w = .invalid w ↔ (kkField w).toNat ∉ [0x9E, 0xA1] := by
  unfold decodeGroupE
  split_ifs <;> simp_all [BitVec.toNat_eq]

theorem decodeGroupF_invalid_iff :
    decodeGroupF w = .invalid w ↔ (kkField w).toNat ∉ [0x07, 0x0A, 0x15, 0x18, 0x1E, 0x29, 0x33, 0x55, 0x65] := by
  unfold decodeGroupF
  split_ifs <;> simp_all [BitVec.toNat_eq]

/-- Only the groups with a secondary lookup that can fail have invalid words. -/
theorem decodeWord_invalid_iff :
    decodeWord w = .invalid w ↔
      ((opField w).toNat = 0x8 ∧ decodeGroup8 w = .invalid w) ∨
      ((opField w).toNat = 0xE ∧ decodeGroupE w = .invalid w) ∨
      ((opField w).toNat = 0xF ∧ decodeGroupF w = .invalid w) := by
  have hlt := (opField w).isLt
  unfold decodeWord
  split <;> simp_all [decodeGroup0_ne_invalid]
  -- no top nibble is left for the decoder's last branch
  omega

end

/-- Settles O5, group by group; in group 8 the nibbles no row names are the other seven of the sixteen. -/
theorem invalidWordsAreThoseListed : Obligations.InvalidWordsAreThoseListed := by
  intro w
  have hn : w.toNat % 16 ∉ [0x0, 0x1, 0x2, 0x3, 0x4, 0x5, 0x6, 0x7, 0xE] ↔
      w.toNat % 16 ∈ [0x8, 0x9, 0xA, 0xB, 0xC, 0xD, 0xF] := by
    simp only [List.mem_cons, List.not_mem_nil, or_false]
    constructor <;> intro <;> omega
  rw [decodeWord_invalid_iff, decodeGroup8_invalid_iff, decodeGroupE_invalid_iff, decodeGroupF_invalid_iff,
    toNat_opField, toNat_nField, toNat_kkField, hn]

/-! ### The opcode map (R106, R107) -/

/-- The fields that a row's mask fixes are the ones the decoder looks up to reach the row's instruction: the first step says each
row's match in the fields, the second reads the decoder at them. -/
theorem decodeWord_of_row (w : Word) :
    ∀ r ∈ opcodeMap, w &&& r.mask = r.pattern → decodeWord w = .instr (r.build w) := by
  simp (disch := decide) only [opcodeMap, List.forall_mem_append, List.forall_mem_cons, and_F000_eq_iff, and_F00F_eq_iff,
    and_F0FF_eq_iff, ofNat_eq_xField, ofNat_eq_yField, ofNat_eq_nField, ofNat_eq_kkField, ofNat_eq_nnnField]
  simp +contextual [decodeWord, decodeGroup0, decodeGroup8, decodeGroupE, decodeGroupF, BitVec.toNat_eq]

/-- Without a row a word falls through its lookups: to `SYS` in group 0, to `Invalid` in groups 8, E and F; in every other group
one row takes all words. -/
theorem decodeWord_of_no_row {w : Word} (h : ∀ r ∈ opcodeMap, w &&& r.mask ≠ r.pattern) :
    decodeWord w = if w &&& 0xF000 = 0 then .instr (.sys (nnnField w)) else .invalid w := by
  simp (disch := decide) only [opcodeMap, List.forall_mem_append, List.forall_mem_cons, and_F000_eq_iff, and_F00F_eq_iff,
    and_F0FF_eq_iff, ne_eq] at h ⊢
  unfold decodeWord decodeGroup0
  split <;> simp_all [BitVec.toNat_eq, decodeGroup8_invalid_iff, decodeGroupE_invalid_iff, decodeGroupF_invalid_iff]

/-- Settles O4: a word either matches a row or falls through. -/
theorem decodeFollowsOpcodeMap : Obligations.DecodeFollowsOpcodeMap := by
  refine ⟨decodeWord_of_row, fun w h => ?_⟩
  rw [ofNat_eq_nnnField]
  exact decodeWord_of_no_row h

/-! ### Encoding a decoded instruction (R109) -/

section
variable {w : Word} {op n : BitVec 4} {kk : Byte} (hop : (opField w).toNat = op.toNat)
include hop

theorem encodeAddress_of_fields : encodeAddress op (nnnField w) = w := by
  rw [← BitVec.eq_of_toNat_eq hop, encodeAddress_fields]

theorem encodeByte_of_fields (hkk : (kkField w).toNat = kk.toNat) : encodeByte op (xField w) kk = w := by
  rw [← BitVec.eq_of_toNat_eq hop, ← BitVec.eq_of_toNat_eq hkk, encodeByte_fields]

theorem encodeRegs_of_fields (hn : (nField w).toNat = n.toNat) : encodeRegs op (xField w) (yField w) n = w := by
  rw [← BitVec.eq_of_toNat_eq hop, ← BitVec.eq_of_toNat_eq hn, encodeRegs_fields]

/-- `CLS` and `RET` ignore `x`. -/
theorem encodeByte_zero_of_fields (hkk : (kkField w).toNat = kk.toNat) : encodeByte op 0 kk = w &&& 0xF0FF#16 := by
  rw [← BitVec.eq_of_toNat_eq hop, ← BitVec.eq_of_toNat_eq hkk, ← and_F0FF_eq_encodeByte]
  rfl

/-- `SE Vx, Vy` and `SNE Vx, Vy` ignore `n`. -/
theorem encodeRegs_zero_of_fields : encodeRegs op (xField w) (yField w) 0#4 = w &&& 0xFFF0#16 := by
  rw [← BitVec.eq_of_toNat_eq hop]
  exact (and_FFF0_eq_encodeRegs w).symm

end

/-- The mask of an instruction that ignores no bit. -/
theorem and_FFFF (w : Word) : w &&& 0xFFFF#16 = w := BitVec.and_allOnes

/-- The instruction of a matching row is well-formed, and its word is the matched one but for the bits it ignores. -/
theorem encode_build_of_row (w : Word) :
    ∀ r ∈ opcodeMap, w &&& r.mask = r.pattern →
      (r.build w).wf = true ∧ encode (r.build w) = w &&& usedBits (r.build w) := by
  simp (disch := decide) only [opcodeMap, List.forall_mem_append, List.forall_mem_cons, and_F000_eq_iff, and_F00F_eq_iff,
    and_F0FF_eq_iff, ofNat_eq_xField, ofNat_eq_yField, ofNat_eq_nField, ofNat_eq_kkField, ofNat_eq_nnnField]
  have hcls : encodeAddress 0#4 0x0E0#12 = encodeByte 0 0 0xE0 := rfl
  have hret : encodeAddress 0#4 0x0EE#12 = encodeByte 0 0 0xEE := rfl
  simp +contextual [Instr.wf, hcls, hret, encode, usedBits, encodeAddress_of_fields, encodeByte_of_fields,
    encodeRegs_of_fields, encodeByte_zero_of_fields (w := w), encodeRegs_zero_of_fields, and_FFFF]

theorem lowByte_nnnField (w : Word) : lowByte (nnnField w) = kkField w := by
  rw [← kkField_encodeAddress (opField w), encodeAddress_fields]

/-- A word of group 0 that no row matches is the word of a well-formed `SYS`: rows 2 and 3 exclude its low bytes. -/
theorem sys_of_no_row {w : Word} (h : ∀ r ∈ opcodeMap, w &&& r.mask ≠ r.pattern) (h0 : w &&& 0xF000 = 0) :
    (Instr.sys (nnnField w)).wf = true ∧ encode (.sys (nnnField w)) = w := by
  have hop : (opField w).toNat = 0 := (and_F000_eq_iff (by decide)).1 h0
  have hcls : w &&& 0xF0FF ≠ 0x00E0 := h ⟨0xF0FF, 0x00E0, fun _ => .cls⟩ (by simp [opcodeMap])
  have hret : w &&& 0xF0FF ≠ 0x00EE := h ⟨0xF0FF, 0x00EE, fun _ => .ret⟩ (by simp [opcodeMap])
  refine ⟨wf_sys_iff.2 ?_, encodeAddress_of_fields hop⟩
  rw [lowByte_nnnField]
  exact ⟨fun hkk => hcls ((and_F0FF_eq_iff (by decide)).2 ⟨hop, congrArg BitVec.toNat hkk⟩),
    fun hkk => hret ((and_F0FF_eq_iff (by decide)).2 ⟨hop, congrArg BitVec.toNat hkk⟩)⟩

/-- Settles O3: what decodes comes from a matching row or is a `SYS` that no row matches. -/
theorem encodeInvertsDecode : Obligations.EncodeInvertsDecode := by
  intro w i h
  by_cases hrow : ∃ r ∈ opcodeMap, w &&& r.mask = r.pattern
  · obtain ⟨r, hr, hm⟩ := hrow
    rw [decodeWord_of_row w r hr hm] at h
    cases h
    exact encode_build_of_row w r hr hm
  · have hno : ∀ r ∈ opcodeMap, w &&& r.mask ≠ r.pattern := by simpa using hrow
    rw [decodeWord_of_no_row hno] at h
    split at h <;> cases h
    obtain ⟨hwf, henc⟩ := sys_of_no_row hno ‹_›
    exact ⟨hwf, henc.trans (and_FFFF w).symm⟩

/-! ### Words written out (R107) -/

/-- Settles O1, by evaluating the decoder at each word. -/
theorem writtenOutWordsDecode : Obligations.WrittenOutWordsDecode := by
  unfold Obligations.WrittenOutWordsDecode
  decide

end Sys2Proof
end

section
/-! SUPPORT. Proofs of the family 40_execution_cycle: a step runs what it decodes (O7) or raises on an invalid word (O9), a faulted
core repeats its condition until a load (O10), every instruction answers and a step reports its result (O12), where an instruction
leaves PC (O16), and who writes timers and keypad (O21). -/

namespace Sys2Proof.Machine

/-! ### Every instruction answers, and so does every step of a core that is not faulted (R130, R131) -/

/-- A memory instruction completes or raises: both are next states. -/
theorem State.withTransfer_answers (s : State) (count : Nat) (i : Instr) (done : State) :
    ∃ t, s.withTransfer count i done = .next t := by
  unfold State.withTransfer
  cases lowestOutOfBounds s.i.toNat count with
  | none => exact ⟨_, rfl⟩
  | some a => exact ⟨_, rfl⟩

/-- Every instruction answers a next state: one that can raise does so in the state it answers (R18). -/
theorem exec_answers (i : Instr) (s : State) : ∃ t, exec i s = .next t := by
  cases i
  case call nnn =>
    by_cases h : s.sp < 16
    · exact ⟨_, exec_call_push h⟩
    · exact ⟨_, exec_call_overflow h⟩
  case ret =>
    cases h : s.stack.getLast? with
    | none => exact ⟨_, exec_ret_underflow h⟩
    | some a => exact ⟨_, exec_ret_pop h⟩
  case jpV0 nnn =>
    by_cases h : s.jumpV0Target nnn > 0xFFF
    · exact ⟨_, exec_jpV0_outside h⟩
    · exact ⟨_, exec_jpV0_inside h⟩
  case addI x =>
    by_cases h : s.dialect.addISetsVF = true
    · exact ⟨_, exec_addI_flag h⟩
    · exact ⟨_, exec_addI_noFlag h⟩
  case drn | ldB | ldMemVx | ldVxMem => exact s.withTransfer_answers _ _ _
  all_goals exact ⟨_, rfl⟩

/-- A step of a core that is not faulted answers a next state. -/
theorem step_answers {s : State} (h : s.safe) : ∃ t, step s = .next t := by
  cases hr : s.run with
  | faulted f => exact absurd hr (h f)
  | awaitingKey x => exact ⟨_, step_awaiting s x hr⟩
  | running =>
    by_cases hp : s.pc.toNat + 1 ≤ 0xFFF
    · cases hd : decodeWord (s.mem.readWord s.pc.toNat) with
      | invalid w => exact ⟨_, step_invalid s w hr hp hd⟩
      | instr i => exact step_instr s i hr hp hd ▸ exec_answers i s
    · exact ⟨_, step_fetchFault s hr hp⟩

/-- The two outcomes of a step: a faulted core repeats its condition, any other answers a next state. -/
theorem step_outcome (s : State) :
    (∃ f, s.run = .faulted f ∧ step s = .fault f) ∨ (∃ t, step s = .next t) := by
  by_cases h : s.safe
  · exact .inr (step_answers h)
  · obtain ⟨f, hf⟩ : ∃ f, s.run = .faulted f := by simpa [State.safe] using h
    exact .inl ⟨f, hf, step_faulted s f hf⟩

/-- The outcome `fault` is the condition of a core that is already faulted (R131). -/
theorem step_eq_fault_iff {s : State} {f : Fault} : step s = .fault f ↔ s.run = .faulted f := by
  refine ⟨fun h => ?_, step_faulted s f⟩
  rcases step_outcome s with ⟨g, hg, hs⟩ | ⟨t, ht⟩
  · rw [hs] at h
    cases h
    exact hg
  · simp [ht] at h

/-- No step is refused. -/
theorem step_ne_refused (s : State) (r : Refusal) : step s ≠ .refused r := by
  rcases step_outcome s with ⟨f, -, hs⟩ | ⟨t, ht⟩
  · simp [hs]
  · simp [ht]

/-! ### The result of a step (R137) -/

/-- A step that answers leaves its next state and reports the run state of it. -/
theorem State.stepTransaction_next {s t : State} (h : step s = .next t) : s.stepTransaction = (t, t.run.result) := by
  simp only [State.stepTransaction, h]

/-- A faulted core stays as it is and returns its condition again (R131). -/
theorem State.stepTransaction_faulted {s : State} {f : Fault} (h : s.run = .faulted f) :
    s.stepTransaction = (s, .fatal f) := by
  simp only [State.stepTransaction, step_faulted s f h]

/-- Settles O12: totality of `exec`, the two outcomes of a step, and the result read off the run state. -/
theorem stepAlwaysAnswersAndReportsItsResult : Obligations.StepAlwaysAnswersAndReportsItsResult := by
  refine ⟨exec_answers, fun s f => step_eq_fault_iff, step_ne_refused, fun s t h => ?_⟩
  rw [State.stepTransaction_next h]
  exact ⟨fun hr => by rw [hr]; rfl, fun x hr => by rw [hr]; rfl, fun f hr => by rw [hr]; rfl⟩

/-! ### The new PC of an instruction that completes (R135) -/

/-- A state that raised a condition is not safe. -/
theorem State.not_safe_raise (s : State) (f : Fault) : ¬ (s.raise f).safe := fun h => h f rfl

/-- A memory instruction that raises nothing answers its completed state. -/
theorem State.withTransfer_safe {s t done : State} {count : Nat} {i : Instr}
    (h : s.withTransfer count i done = .next t) (hsafe : t.safe) : t = done := by
  rcases State.withTransfer_cases h with ⟨-, rfl⟩ | ⟨-, -, rfl⟩
  · rfl
  · exact absurd hsafe (s.not_safe_raise _)

/-- A key wait that completes moves PC past the instruction (R303). -/
theorem State.awaitKey_pc {s : State} {x : RegIndex} (hx : s.run = .awaitingKey x)
    (hrun : (s.awaitKey x).run = .running) : (s.awaitKey x).pc = s.pc + 2 := by
  rcases s.awaitKey_cases x with ⟨hs, -⟩ | ⟨k, -, -, hk⟩
  · simp [hs, hx] at hrun
  · rw [hk]

/-- The key that `SKP` and `SKNP` test is the low nibble of Vx (R304). -/
theorem State.keys_keyOperand (s : State) (x : RegIndex) :
    s.keys[s.keyOperand x] = s.keys[(s.getV x).toNat % 16] := by
  simp [State.keyOperand]

/-- A skip answers by the condition of its row: a test of two bytes, or of a key (R204). -/
theorem exec_skip {i : Instr} {s : State} {c : Bool} (h : skipCondition s i = some c) :
    exec i s = .next (s.skipIf c) := by
  cases i <;> cases h
  case seImm | seReg => rfl
  case sneImm | sneReg => simp only [exec, execSneImm, execSneReg, bne, beq_eq_decide, ← decide_not, ne_eq]
  case skp | sknp => simp only [exec, execSkp, execSknp, State.keys_keyOperand]

/-- A skip moves PC by 4 if its condition holds and by 2 otherwise (R204). -/
theorem exec_skip_pc {i : Instr} {s t : State} {c : Bool} (hc : skipCondition s i = some c) (h : exec i s = .next t) :
    t.pc = if c then s.pc + 4 else s.pc + 2 := by
  rw [exec_skip hc] at h
  cases h
  rfl

/-- An address operand is widened with its value (R105). -/
theorem addressOperand_toNat (nnn : BitVec 12) : (addressOperand nnn).toNat = nnn.toNat := by
  unfold addressOperand
  bv_omega

/-- Settles O16. An instruction with several results is taken apart by them, and the one that raises contradicts the hypothesis. -/
theorem programCounterAfterEachInstruction : Obligations.ProgramCounterAfterEachInstruction := by
  refine ⟨fun s t x hx h hrun => ?wait, fun i s t _ h hsafe => ?instr⟩
  case wait =>
    rw [step_awaiting s x hx] at h
    cases h
    exact State.awaitKey_pc hx hrun
  cases i
  case jp nnn => cases h; exact addressOperand_toNat nnn
  case call nnn =>
    by_cases hd : s.sp < 16
    · rw [exec_call_push hd] at h
      cases h
      exact addressOperand_toNat nnn
    · rw [exec_call_overflow hd] at h
      cases h
      exact absurd hsafe (s.not_safe_raise _)
  case ret =>
    cases ha : s.stack.getLast? with
    | none =>
      rw [exec_ret_underflow ha] at h
      cases h
      exact absurd hsafe (s.not_safe_raise _)
    | some a =>
      rw [exec_ret_pop ha] at h
      cases h
      rfl
  case jpV0 nnn =>
    by_cases hj : s.jumpV0Target nnn > 0xFFF
    · rw [exec_jpV0_outside hj] at h
      cases h
      exact absurd hsafe (s.not_safe_raise _)
    · rw [exec_jpV0_inside hj] at h
      cases h
      exact (BitVec.toNat_ofNat _ _).trans (Nat.mod_eq_of_lt (by omega))
  case seImm | sneImm | seReg | sneReg | skp | sknp => exact exec_skip_pc rfl h
  case drn | ldB | ldMemVx | ldVxMem => rw [State.withTransfer_safe h hsafe]; rfl
  case addI x =>
    by_cases hd : s.dialect.addISetsVF = true
    · rw [exec_addI_flag hd] at h
      cases h
      rfl
    · rw [exec_addI_noFlag hd] at h
      cases h
      rfl
  all_goals (cases h; rfl)

/-! ### Who writes the timers and the keypad (R138) -/

/-- The inversion of an instruction, as to timers and keypad: it leaves all three, or it is `LD DT, Vx` or `LD ST, Vx` and writes the
one timer it names. -/
theorem exec_devices_cases {i : Instr} {s t : State} (h : exec i s = .next t) :
    (t.keys = s.keys ∧ t.dt = s.dt ∧ t.st = s.st) ∨
    (∃ x, i = .ldDTVx x ∧ t = { s.advance with dt := s.getV x }) ∨
    (∃ x, i = .ldSTVx x ∧ t = { s.advance with st := s.getV x }) := by
  cases i
  case ldDTVx x => cases h; exact .inr (.inl ⟨x, rfl, rfl⟩)
  case ldSTVx x => cases h; exact .inr (.inr ⟨x, rfl, rfl⟩)
  case call | ret | jpV0 | addI =>
    simp only [exec, execCall, execRet, execJpV0, execAddI] at h
    split at h <;> cases h <;> exact .inl ⟨rfl, rfl, rfl⟩
  case drn | ldB | ldMemVx | ldVxMem =>
    rcases State.withTransfer_cases h with ⟨-, rfl⟩ | ⟨-, -, rfl⟩ <;> exact .inl ⟨rfl, rfl, rfl⟩
  all_goals (cases h; exact .inl ⟨rfl, rfl, rfl⟩)

/-- Settles O21: a waiting core and a raised condition leave timers and keypad, and an instruction writes a timer only if it is the
one that names it. -/
theorem stepLeavesTimersAndKeypad : Obligations.StepLeavesTimersAndKeypad := by
  intro s t h
  rcases step_cases h with ⟨x, -, rfl⟩ | ⟨-, -, rfl⟩ | ⟨w, -, -, -, rfl⟩ | ⟨i, hr, -, hd, hi⟩
  · rcases s.awaitKey_cases x with ⟨hs, -⟩ | ⟨k, -, -, hk⟩
    · rw [hs]
      exact ⟨rfl, .inl rfl, .inl rfl⟩
    · rw [hk]
      exact ⟨rfl, .inl rfl, .inl rfl⟩
  · exact ⟨rfl, .inl rfl, .inl rfl⟩
  · exact ⟨rfl, .inl rfl, .inl rfl⟩
  · rcases exec_devices_cases hi with ⟨hkeys, hdt, hst⟩ | ⟨x, rfl, rfl⟩ | ⟨x, rfl, rfl⟩
    · exact ⟨hkeys, .inl hdt, .inl hst⟩
    · exact ⟨rfl, .inr ⟨x, hr, hd⟩, .inl rfl⟩
    · exact ⟨rfl, .inl rfl, .inr ⟨x, hr, hd⟩⟩

/-! ### What a running core decodes (R71, R134) -/

/-- Two bytes decode to an instruction exactly if their word does, high byte first. -/
theorem decodeBytes_pair_eq_ok_iff {hi lo : Byte} {i : Instr} :
    decodeBytes [hi, lo] = .ok i [] ↔ decodeWord (wordOfBytes hi lo) = .instr i := by
  cases hd : decodeWord (wordOfBytes hi lo) with
  | instr j => simp [decodeBytes, hd]
  | invalid w => simp [decodeBytes, hd]

/-- Settles O7: the bytes at PC and PC + 1 decode as the word there. -/
theorem stepRunsTheDecodedInstruction : Obligations.StepRunsTheDecodedInstruction :=
  fun s i hr hp hd => step_instr s i hr hp (decodeBytes_pair_eq_ok_iff.1 hd)

/-- Settles O9: the step raises on the word it fetched. -/
theorem invalidWordRaises : Obligations.InvalidWordRaises := fun s hr hp hd => step_invalid s _ hr hp hd

/-! ### Leaving a fault (R131, R346) -/

/-- A ROM of at most 3584 bytes loads (R382). -/
theorem State.load_fits (s : State) {rom : List Byte} (h : rom.length ≤ 3584) : s.load rom = (s.loaded rom, .ok) :=
  if_neg (by show ¬ 0x200 + rom.length > 4096; omega)

/-- A longer ROM fails to load and leaves the state as it is (R383). -/
theorem State.load_oversized (s : State) {rom : List Byte} (h : ¬ rom.length ≤ 3584) :
    s.load rom = (s, .loadError (.loadError rom.length)) :=
  if_pos (by show 0x200 + rom.length > 4096; omega)

/-- Settles O10: of the transactions only a load that fits writes the run state of a faulted core. -/
theorem faultedCoreRepeatsUntilLoad : Obligations.FaultedCoreRepeatsUntilLoad := by
  intro s f hf
  refine ⟨step_faulted s f hf, State.stepTransaction_faulted hf, fun a => ?_⟩
  cases a with
  | load rom =>
    by_cases hlen : rom.length ≤ 3584
    · exact .inr ⟨rom, rfl, hlen, by simp only [State.perform, s.load_fits hlen]; rfl⟩
    · exact .inl (by simpa only [State.perform, s.load_oversized hlen] using hf)
  | step => exact .inl (by simpa only [State.perform, State.stepTransaction_faulted hf] using hf)
  | tickTimers | setKeys | framebufferSnapshot | shouldBeep => exact .inl hf

end Sys2Proof.Machine
end

section
/-! SUPPORT. Proofs of the family 41_arithmetic_logic: the instructions that write Vx and no flag (O24 to O26, and `RND`, O31), and
those that write Vx and then VF as a flag (O27 to O30). -/

namespace Sys2Proof.Machine

/-! ### Writing Vx and no flag (R150 to R155, R165) -/

/-- A write of Vx that moves PC on, as the record it answers. -/
theorem State.writeVx_eq (s : State) (x : RegIndex) (b : Byte) :
    s.writeVx x b = .next { s with v := s.v.set x b, pc := s.pc + 2 } := rfl

/-- Settles O24: the byte written is the immediate. -/
theorem loadImmediateWritesByte : Obligations.LoadImmediateWritesByte := fun x kk s => s.writeVx_eq x kk

/-- Settles O25: the byte written is the sum of R161. -/
theorem addImmediateWrapsWithoutCarry : Obligations.AddImmediateWrapsWithoutCarry :=
  fun x kk s => s.writeVx_eq x (add8 (s.getV x) kk)

/-- Settles O26: each of the four ends in the same write. -/
theorem copyAndLogicWriteNoFlag : Obligations.CopyAndLogicWriteNoFlag :=
  fun x _ s => ⟨s.writeVx_eq x _, s.writeVx_eq x _, s.writeVx_eq x _, s.writeVx_eq x _⟩

/-- Settles O31: `RND` counts its draw and writes the masked byte; a mask of zeros clears it and a mask of ones keeps it. -/
theorem randomMasksAFreshDraw : Obligations.RandomMasksAFreshDraw := by
  intro x kk s
  have hread (r : RegIndex) : (s.countDraw.setV x (s.drawnByte &&& kk)).advance.getV r =
      if r = x then Config.randomByte s.draws &&& kk else s.getV r := State.getV_setV _ x r _
  refine ⟨_, rfl, rfl, hread, fun hzero => ?_, fun hones => ?_⟩
  · rw [hread, if_pos rfl, hzero]
    exact BitVec.and_zero
  · rw [hread, if_pos rfl, hones]
    exact BitVec.and_allOnes

/-! ### Writing Vx and then the flag (R156 to R160, R162) -/

/-- Only Vx and VF change and PC moves on; VF is written last, so with x = F it holds the flag. -/
theorem State.writeVxFlag_answers (s : State) (x : RegIndex) (b flag : Byte) :
    ∃ t, s.writeVxFlag x b flag = .next t ∧ sameButRegisters s t ∧
      ∀ r, t.getV r = if r = 15 then flag else if r = x then b else s.getV r :=
  ⟨_, rfl, rfl, fun r => by rw [State.getV_advance, State.getV_setFlag, State.getV_setV]⟩

/-- A flag is 1 where its condition holds and 0 elsewhere (R162). -/
theorem flagByte_decide (p : Prop) [Decidable p] : flagByte (decide p) = if p then 1 else 0 := by
  simp [flagByte]

/-- Settles O27: the sum of R161 and its carry. -/
theorem addRegistersSetsCarry : Obligations.AddRegistersSetsCarry := by
  intro x y s
  rw [← flagByte_decide]
  exact s.writeVxFlag_answers x (add8 (s.getV x) (s.getV y)) (carryFlag (s.getV x) (s.getV y))

/-- Settles O28: the difference of R161 and its no-borrow flag. -/
theorem subtractSetsNoBorrow : Obligations.SubtractSetsNoBorrow := by
  intro x y s
  rw [← flagByte_decide]
  exact s.writeVxFlag_answers x (sub8 (s.getV x) (s.getV y)) (noBorrowFlag (s.getV x) (s.getV y))

/-- Settles O29: the operands of `SUB` the other way round. -/
theorem reverseSubtractSetsNoBorrow : Obligations.ReverseSubtractSetsNoBorrow := by
  intro x y s
  rw [← flagByte_decide]
  exact s.writeVxFlag_answers x (sub8 (s.getV y) (s.getV x)) (noBorrowFlag (s.getV y) (s.getV x))

/-! ### Shifts as arithmetic (R158, R160) -/

section
variable (b : Byte)

theorem shiftRight1_eq : shiftRight1 b = BitVec.ofNat 8 (b.toNat / 2) := by
  unfold shiftRight1
  bv_omega

theorem shiftLeft1_eq : shiftLeft1 b = BitVec.ofNat 8 (b.toNat * 2 % 256) := by
  unfold shiftLeft1
  bv_omega

theorem shiftedOutRight_eq : shiftedOutRight b = BitVec.ofNat 8 (b.toNat % 2) := by
  have hbit : (shiftedOutRight b).toNat = b.toNat % 2 := Nat.and_one_is_mod b.toNat
  bv_omega

theorem shiftedOutLeft_eq : shiftedOutLeft b = BitVec.ofNat 8 (b.toNat / 128) := by
  unfold shiftedOutLeft
  bv_omega

end

/-- The byte shifted is the one of the register that the dialect names (R163). -/
theorem State.eq_shiftOperand {s : State} {x y : RegIndex} {b : Byte} (hx : s.dialect.shiftSource = .vx → b = s.getV x)
    (hy : s.dialect.shiftSource = .vy → b = s.getV y) : b = s.shiftOperand x y := by
  unfold State.shiftOperand
  cases hsource : s.dialect.shiftSource with
  | vx => exact hx hsource
  | vy => exact hy hsource

/-- Settles O30: both shifts of the source byte, as a division and a product by 2. -/
theorem shiftsMoveOneBitIntoVF : Obligations.ShiftsMoveOneBitIntoVF := by
  intro x y s b hx hy
  obtain rfl := State.eq_shiftOperand hx hy
  rw [← shiftRight1_eq, ← shiftLeft1_eq, ← shiftedOutRight_eq, ← shiftedOutLeft_eq]
  exact ⟨s.writeVxFlag_answers x _ _, s.writeVxFlag_answers x _ _⟩

end Sys2Proof.Machine
end

section
/-! SUPPORT. Proof of the family 42_skips: the four skips on registers (O32). -/

namespace Sys2Proof.Machine

/-- A skip whose condition is a proposition moves PC by it and changes nothing else (R204). -/
theorem exec_skip_decide {i : Instr} {s : State} {p : Prop} [Decidable p] (h : skipCondition s i = some (decide p)) :
    exec i s = .next { s with pc := if p then s.pc + 4 else s.pc + 2 } := by
  rw [exec_skip h, State.skipIf]
  simp only [decide_eq_true_eq]

/-- Settles O32: each of the four conditions is the comparison of its row. -/
theorem registerSkips : Obligations.RegisterSkips :=
  fun _ _ _ _ => ⟨exec_skip_decide rfl, exec_skip_decide rfl, exec_skip_decide rfl, exec_skip_decide rfl⟩

end Sys2Proof.Machine
end

section
/-! SUPPORT. Proofs of the family 43_control_transfer: `SYS` (O33), the jumps (O34, O38), and call and return (O35 to O37). -/

namespace Sys2Proof.Machine

/-- Settles O33: the operand of `SYS` is not looked at. -/
theorem sysOnlyAdvances : Obligations.SysOnlyAdvances := fun _ _ => rfl

/-! ### Jumps (R222, R228) -/

/-- Settles O34: a jump to 0xFFF leaves a running core whose second fetched byte would lie at 0x1000. -/
theorem jumpSetsPC : Obligations.JumpSetsPC := by
  intro nnn s
  refine ⟨{ s with pc := addressOperand nnn }, rfl, rfl, addressOperand_toNat nnn, fun hrun hlast => ?_⟩
  subst hlast
  exact (fetchOutOfBoundsRaises { s with pc := addressOperand 0xFFF } hrun).2 (addressOperand_toNat 0xFFF)

/-- Settles O38: the check of R228 on nnn + V0, passed and failed. -/
theorem jumpV0AddsOrRaises : Obligations.JumpV0AddsOrRaises :=
  fun _ _ => ⟨fun hinside => exec_jpV0_inside (Nat.not_lt.2 hinside), fun houtside => exec_jpV0_outside houtside⟩

/-! ### Call and return (R223, R224) -/

/-- An address operand is widened by its value, as the statements about `CALL` write it. -/
theorem addressOperand_eq_ofNat (nnn : BitVec 12) : addressOperand nnn = BitVec.ofNat 16 nnn.toNat :=
  (BitVec.ofNat_toNat 16 nnn).symm

/-- Settles O35: at depth 16 there is no room, and 16 is the depth recorded. -/
theorem callPushesOrOverflows : Obligations.CallPushesOrOverflows := by
  intro nnn s
  refine ⟨fun hroom => ?room, fun hfull => ?full⟩
  case room =>
    rw [exec_call_push hroom, addressOperand_eq_ofNat]
    rfl
  case full =>
    rw [exec_call_overflow (by omega), hfull]
    rfl

/-- `RET` pops the newest entry, the last of the list, into PC. -/
theorem exec_ret_append {s : State} {rest : List Word} {a : Word} (h : s.stack = rest ++ [a]) :
    exec .ret s = .next { s with stack := rest, pc := a } := by
  have hnewest : s.stack.getLast? = some a := by rw [h, List.getLast?_concat]
  rw [exec_ret_pop hnewest, State.drop, h, List.dropLast_concat]

/-- Settles O36: an empty stack has no newest entry, and its depth 0 is recorded. -/
theorem returnPopsOrUnderflows : Obligations.ReturnPopsOrUnderflows := by
  refine fun s _ _ => ⟨exec_ret_append, fun hempty => ?_⟩
  have hdepth : s.sp = 0 := List.length_eq_zero_iff.2 hempty
  rw [exec_ret_underflow (List.getLast?_eq_none_iff.2 hempty), hdepth]
  rfl

/-- Settles O37: the subroutine ends with the caller's stack and PC + 2 on top, which `RET` pops. -/
theorem returnAfterCallRestoresPC : Obligations.ReturnAfterCallRestoresPC := by
  intro nnn s t body hroom hcall hbody
  have hpushed : t.stack = s.stack ++ [s.pc + 2] := by
    rw [exec_call_push hroom] at hcall
    cases hcall
    rfl
  exact ⟨_, exec_ret_append (hbody.trans hpushed), rfl, rfl⟩

end Sys2Proof.Machine
end

section
/-! SUPPORT. Proofs of the family 44_memory_index: the instructions that write I (O39 to O41), the decimal store (O42), and the
block store and load (O43, O44). -/

namespace Sys2Proof.Machine

/-! ### Writing I (R250, R252, R254) -/

/-- Settles O39: the address operand is nnn, widened. -/
theorem loadIndexSetsAddress : Obligations.LoadIndexSetsAddress := by
  intro nnn s
  rw [← addressOperand_eq_ofNat]
  rfl

/-- Settles O40: a 16-bit word is taken modulo 65536 in any case, and the flag is the comparison of R252. -/
theorem addIndexWrapsAndMaySetVF : Obligations.AddIndexWrapsAndMaySetVF := by
  intro x s
  have hwrap : BitVec.ofNat 16 ((s.i.toNat + (s.getV x).toNat) % 65536) = BitVec.ofNat 16 (s.indexSum x) :=
    BitVec.eq_of_toNat_eq (Nat.mod_mod _ _)
  rw [hwrap]
  refine ⟨fun hplain => ?plain, fun hflag => ?flag⟩
  case plain => exact exec_addI_noFlag (ne_true_of_eq_false hplain)
  case flag =>
    rw [exec_addI_flag hflag, indexOverflowFlag, flagByte_decide]
    rfl

/-- Settles O41: the glyph address is computed from the low nibble of Vx alone. -/
theorem loadFontPointsAtGlyph : Obligations.LoadFontPointsAtGlyph := fun _ _ => rfl

/-! ### Transfers at I (R74, R256, R258, R260) -/

/-- Byte j of a transfer inside memory is read back at its address. -/
theorem Memory.read_writeBytes_add (m : Memory) {base j : Nat} {bytes : List Byte} (hb : base + bytes.length ≤ 4096)
    (hj : j < bytes.length) : (m.writeBytes base bytes).read (base + j) = bytes.getD j 0 := by
  rw [Memory.read_writeBytes m base bytes (base + j) hb, if_pos (by omega), Nat.add_sub_cancel_left]

/-- A byte has three decimal digits (R256). -/
@[simp] theorem length_decimalDigits (b : Byte) : (decimalDigits b).length = 3 := rfl

/-- A decimal store inside memory writes the digits of Vx at I and moves PC on (R256). -/
theorem exec_ldB_inBounds {s : State} (x : RegIndex) (hb : s.i.toNat + 2 ≤ 0xFFF) :
    exec (.ldB x) s =
      .next { s.advance with mem := s.mem.writeBytes (s.transferAddress 0) (decimalDigits (s.getV x)) } :=
  s.withTransfer_inBounds _ _ _ (.inr (by omega))

/-- Settles O42: digit j of Vx is byte j of the transfer. -/
theorem decimalStoreWritesThreeDigits : Obligations.DecimalStoreWritesThreeDigits := by
  intro x s
  refine ⟨fun hb => ?inside, fun hb => ?outside⟩
  case inside =>
    have hexec := exec_ldB_inBounds x hb
    have hdigit (j : Nat) (hj : j < 3) : (s.mem.writeBytes s.i.toNat (decimalDigits (s.getV x))).read (s.i.toNat + j) =
        (decimalDigits (s.getV x)).getD j 0 :=
      s.mem.read_writeBytes_add (by rw [length_decimalDigits]; omega) hj
    exact ⟨_, hexec, rfl, hdigit 0 (by decide), hdigit 1 (by decide), hdigit 2 (by decide),
      (onlyStoredBytesChange _ _ _ hexec).1⟩
  case outside => exact s.withTransfer_outOfBounds 3 _ _ (by decide) (by omega)

/-- Settles O43: byte j of the transfer is Vj. -/
theorem registerStoreWritesV0ToVx : Obligations.RegisterStoreWritesV0ToVx := by
  intro x s
  refine ⟨fun hb => ?inside, fun hb => ?outside⟩
  case inside =>
    have hexec := exec_ldMemVx_inBounds hb
    refine ⟨_, hexec, rfl, fun j hj => ?_, (onlyStoredBytesChange _ _ _ hexec).1⟩
    rw [(read_after_ldMemVx hb hexec).2 j.val hj, Fin.ofNat_val_eq_self]
  case outside => exact s.withTransfer_outOfBounds (x.val + 1) _ _ (by omega) (by omega)

/-- Writing any registers and moving PC on leaves all else. The registers are a variable, so that no check evaluates them. -/
theorem sameButRegisters_advance (s : State) (v : Vector Byte 16) :
    sameButRegisters s ({ s with v := v } : State).advance := rfl

/-- Settles O44: the block load writes the byte at I + r to each Vr up to Vx, and checks the whole transfer first. -/
theorem registerLoadReadsV0ToVx : Obligations.RegisterLoadReadsV0ToVx := by
  intro x s
  refine ⟨fun hb => ?inside, fun hb => ?outside⟩
  case inside =>
    refine ⟨_, exec_ldVxMem_inBounds hb, sameButRegisters_advance s _, fun r => ?_⟩
    rw [State.getV_advance, State.getV_setRegistersUpTo]
    rfl
  case outside => exact s.withTransfer_outOfBounds (x.val + 1) _ _ (by omega) (by omega)

end Sys2Proof.Machine
end

section
/-! SUPPORT. Proofs of the family 45_graphics: clearing the screen (O47), drawing a sprite (O48), and drawing it twice (O49). -/

namespace Sys2Proof.Machine

/-! ### Clearing (R280) -/

/-- Settles O47: the grid `CLS` answers has every pixel off. -/
theorem clearTurnsEveryPixelOff : Obligations.ClearTurnsEveryPixelOff := fun _ => ⟨_, rfl, rfl, Framebuffer.get_off⟩

/-! ### The pixels of a draw (R282) -/

/-- Byte j of a read transfer is the byte at its address. -/
theorem Memory.getD_readBytes (m : Memory) (base : Nat) {count j : Nat} (hj : j < count) :
    (m.readBytes base count).getD j 0 = m.read (base + j) := by
  have hlt : j < (m.readBytes base count).length := by rwa [Memory.length_readBytes]
  rw [List.getD_eq_getElem _ _ hlt, Memory.getElem_readBytes]

section
variable (s : State) (x y : RegIndex) (n : BitVec 4) (px : Fin 64) (py : Fin 32)

/-- The pixels `DRN Vx, Vy, n` plots, in order. -/
def State.drawnPixels : List (Fin 64 × Fin 32) :=
  spritePixels ((s.getV x).toNat % 64) ((s.getV y).toNat % 32) (s.mem.readBytes (s.transferAddress 0) n.toNat)

/-- The plotted pixels are those under a set bit of the sprite. -/
theorem State.mem_drawnPixels : (px, py) ∈ s.drawnPixels x y n ↔ underSprite s x y n px py := by
  rw [State.drawnPixels, mem_spritePixels, Memory.length_readBytes]
  refine exists_congr fun r => exists_congr fun c => and_congr_right fun hr => and_congr_right fun _ => ?_
  rw [Memory.getD_readBytes _ _ hr]
  rfl

/-- A draw toggles its pixels and hits exactly if one of them was on: with at most 15 rows it plots no pixel twice. -/
theorem State.drawn_spec :
    (∀ qx qy, (s.drawn x y n).fb.get qx qy = (s.fb.get qx qy ^^ decide ((qx, qy) ∈ s.drawnPixels x y n))) ∧
    (s.drawn x y n).hit = (s.drawnPixels x y n).any fun p => s.fb.get p.1 p.2 := by
  have hrows : (s.mem.readBytes (s.transferAddress 0) n.toNat).length ≤ 32 := by
    rw [Memory.length_readBytes]
    omega
  exact Canvas.plotRows_spec _ _ _ _ hrows

variable {s x y n px py}

theorem State.get_drawn_under (h : underSprite s x y n px py) : (s.drawn x y n).fb.get px py = !s.fb.get px py := by
  rw [(s.drawn_spec x y n).1, decide_eq_true ((s.mem_drawnPixels ..).2 h), Bool.xor_true]

theorem State.get_drawn_notUnder (h : ¬ underSprite s x y n px py) : (s.drawn x y n).fb.get px py = s.fb.get px py := by
  rw [(s.drawn_spec x y n).1, decide_eq_false (mt (s.mem_drawnPixels ..).1 h), Bool.xor_false]

/-- A draw collides exactly if a pixel under the sprite was on. -/
theorem State.drawn_hit_iff :
    (s.drawn x y n).hit = true ↔ ∃ px py, underSprite s x y n px py ∧ s.fb.get px py = true := by
  rw [(s.drawn_spec x y n).2, List.any_eq_true, Prod.exists]
  simp only [State.mem_drawnPixels]

/-- A draw turns a pixel off exactly where it toggles one that was on, so these are the draws that collide. -/
theorem State.drawn_hit_iff_turnsOff :
    (s.drawn x y n).hit = true ↔ ∃ px py, s.fb.get px py = true ∧ (s.drawn x y n).fb.get px py = false := by
  rw [State.drawn_hit_iff]
  refine exists_congr fun px => exists_congr fun py => ?_
  by_cases hunder : underSprite s x y n px py
  · simp [hunder, State.get_drawn_under hunder]
  · simp [hunder, State.get_drawn_notUnder hunder]

end

/-! ### What a draw answers (R282) -/

/-- A sprite inside memory, or of no rows, is drawn: only the grid and VF change, and PC moves on. -/
theorem exec_drn_inBounds {x y : RegIndex} {n : BitVec 4} {s : State} (hb : n = 0 ∨ s.i.toNat + n.toNat ≤ 0x1000) :
    ∃ t, exec (.drn x y n) s = .next t ∧ t = { s with fb := t.fb, v := t.v, pc := s.pc + 2 } ∧
      t.fb = (s.drawn x y n).fb ∧ t.getV 15 = collisionFlag (s.drawn x y n).hit ∧
      ∀ r, r ≠ 15 → t.getV r = s.getV r := by
  have hcount : n.toNat = 0 ∨ s.i.toNat + n.toNat ≤ 0x1000 := hb.imp_left (congrArg BitVec.toNat)
  exact ⟨_, s.withTransfer_inBounds _ _ _ hcount, rfl, rfl, State.getV_setV _ 15 15 _,
    fun _ hr => State.getV_setV_ne _ hr⟩

/-- Settles O48: VF is the collision of the draw, and the check of R74 comes before it. -/
theorem drawTogglesThePixelsUnderTheSprite : Obligations.DrawTogglesThePixelsUnderTheSprite := by
  intro x y n s
  refine ⟨fun hb => ?inside, fun hn hb => ?outside⟩
  case inside =>
    obtain ⟨t, hexec, hframe, hfb, hflag, hregs⟩ := exec_drn_inBounds hb
    refine ⟨t, hexec, hframe, fun px py hunder => ?_, fun px py hnot => ?_, fun hoff => ?_, fun hstay => ?_, hregs⟩
    · rw [hfb, State.get_drawn_under hunder]
    · rw [hfb, State.get_drawn_notUnder hnot]
    · rw [hfb, ← State.drawn_hit_iff_turnsOff] at hoff
      rw [hflag, hoff]
      rfl
    · have hmiss : (s.drawn x y n).hit = false := by
        rw [← Bool.not_eq_true, State.drawn_hit_iff_turnsOff, ← hfb]
        rintro ⟨px, py, hon, hoff⟩
        exact absurd (hstay px py hon) (ne_true_of_eq_false hoff)
      rw [hflag, hmiss]
      rfl
  case outside =>
    have hcount : n.toNat ≠ 0 := fun h => hn (BitVec.eq_of_toNat_eq h)
    exact s.withTransfer_outOfBounds _ _ _ hcount hb

/-! ### Drawing twice (R284) -/

/-- The sprite depends on the two coordinates, I and memory alone. -/
theorem underSprite_congr {s t : State} {x y : RegIndex} (hi : t.i = s.i) (hmem : t.mem = s.mem)
    (hx : t.getV x = s.getV x) (hy : t.getV y = s.getV y) : underSprite t x y = underSprite s x y := by
  unfold underSprite
  rw [hi, hmem, hx, hy]

/-- Settles O49, from O48 at both draws: neither coordinate is VF, so both toggle the same pixels. -/
theorem doubleDrawRestoresTheScreen : Obligations.DoubleDrawRestoresTheScreen := by
  intro x y n s t hx hy hb hexec
  obtain ⟨t', hexec', hframe, hunder, hnot, -, -, hregs⟩ := (drawTogglesThePixelsUnderTheSprite x y n s).1 (.inr hb)
  obtain rfl : t' = t := by simpa [hexec'] using hexec
  have hi : t'.i = s.i := by rw [hframe]
  have hmem : t'.mem = s.mem := by rw [hframe]
  obtain ⟨u, hexecU, -, hunderU, hnotU, hone, hzero, -⟩ :=
    (drawTogglesThePixelsUnderTheSprite x y n t').1 (.inr (by rwa [hi]))
  rw [underSprite_congr hi hmem (hregs x hx) (hregs y hy)] at hunderU hnotU
  refine ⟨u, hexecU, Framebuffer.ext _ _ fun px py => ?restored, fun hoff => hone ?collides, fun hon => hzero ?clear⟩
  case restored =>
    by_cases h : underSprite s x y n px py
    · rw [hunderU px py h, hunder px py h, Bool.not_not]
    · rw [hnotU px py h, hnot px py h]
  case collides =>
    obtain ⟨px, py, h, hoff⟩ := hoff
    have hon : t'.fb.get px py = true := by rw [hunder px py h, hoff, Bool.not_false]
    exact ⟨px, py, hon, by rw [hunderU px py h, hon, Bool.not_true]⟩
  case clear =>
    intro px py hlit
    have h : ¬ underSprite s x y n px py := fun h => by simp [hunder px py h, hon px py h] at hlit
    rw [hnotU px py h, hlit]

end Sys2Proof.Machine
end

section
/-! SUPPORT. Proofs of the family 46_input: the key wait (O11) and the skips on a key (O50). -/

namespace Sys2Proof.Machine

/-- Settles O11: a waiting step is `State.awaitKey`, and its result is read off the run state that leaves. -/
theorem keyWaitStartsThenTakesTheLeastKey : Obligations.KeyWaitStartsThenTakesTheLeastKey := by
  intro s x
  refine ⟨rfl, fun hwait hnone => ?noKey, fun hwait k hk hleast => ?leastKey⟩
  case noKey =>
    have hstep : step s = .next s := by rw [step_awaiting s x hwait, s.awaitKey_noKey x hnone]
    rw [State.stepTransaction_next hstep, hwait]
    rfl
  case leastKey =>
    rw [State.stepTransaction_next (step_awaiting s x hwait), s.awaitKey_key x k hk hleast]
    rfl

section
variable {s : State} {x : RegIndex} {k : Fin 16}

/-- `SKP` tests whether the key of the low nibble is pressed (R304). -/
theorem skipCondition_skp (hk : k.val = (s.getV x).toNat % 16) :
    skipCondition s (.skp x) = some (decide (s.keys[k] = true)) := by
  simp [skipCondition, ← hk]

/-- `SKNP` tests whether the key of the low nibble is released (R304). -/
theorem skipCondition_sknp (hk : k.val = (s.getV x).toNat % 16) :
    skipCondition s (.sknp x) = some (decide (s.keys[k] = false)) := by
  simp [skipCondition, ← hk]

end

/-- Settles O50: the conditions of the two skips are the tests of the key k. -/
theorem keySkipsTestTheLowNibble : Obligations.KeySkipsTestTheLowNibble :=
  fun _ _ _ hk => ⟨exec_skip_decide (skipCondition_skp hk), exec_skip_decide (skipCondition_sknp hk)⟩

end Sys2Proof.Machine
end

section
/-! SUPPORT. Proof of the family 47_timers: the timer instructions (O51). -/

namespace Sys2Proof.Machine

/-- The beep is on exactly while ST is not 0 (R367). -/
theorem State.shouldBeep_iff {s : State} : s.shouldBeep = true ↔ s.st ≠ 0 := by
  rw [State.shouldBeep, decide_eq_true_iff, gt_iff_lt, Nat.pos_iff_ne_zero, ne_eq, ne_eq, ← BitVec.toNat_inj]
  rfl

/-- Settles O51: each transfer is its meaning, and the beep follows the ST just written. -/
theorem timerTransfers : Obligations.TimerTransfers := fun _ _ => ⟨rfl, rfl, rfl, State.shouldBeep_iff⟩

end Sys2Proof.Machine
end

section
/-! SUPPORT. Proofs of the family 60_exceptions: which conditions an instruction raises (O14) and what a bounds fault records (O15),
the countdown of the timers (O52), and the transactions on keypad, screen and beep (O53). -/

namespace Sys2Proof.Machine

/-! ### Fatal conditions (R341, R342) -/

/-- An instruction that faults a core that was not faulted raises that condition itself, and its row lists it. -/
theorem exec_raises {i : Instr} {s t : State} {f : Fault} (hr : s.run = .running) (h : exec i s = .next t)
    (hf : t.run = .faulted f) :
    mayRaise i f ∧ ∀ a w, f = .memoryOutOfBounds a (some w) → w = encode i ∧ a > 0xFFF ∧ usedBits i = 0xFFFF := by
  rcases exec_cases h with ⟨g, rfl, hmay, hbounds⟩ | hrun | ⟨x, -, rfl⟩
  · obtain rfl : g = f := RunState.faulted.inj hf
    exact ⟨hmay, hbounds⟩
  · rw [hrun, hr] at hf
    cases hf
  · cases hf

/-- Settles O14: an instruction raises what its own row lists, and only a step of a running core faults. -/
theorem instructionsRaiseOnlyTheirOwnFaults : Obligations.InstructionsRaiseOnlyTheirOwnFaults := by
  refine ⟨fun i s t f hr h hf => (exec_raises hr h hf).1, fun s t x hx h f hf => ?_⟩
  rw [run_of_step_faulted h hf] at hx
  cases hx

/-- Settles O15: only an executed instruction records a word, the one it encodes to; it uses every bit of its word, so this is the
word it was decoded from. -/
theorem boundsFaultRecordsTheFetchedWord : Obligations.BoundsFaultRecordsTheFetchedWord := by
  intro s t a w h hr hf
  rcases step_cases h with ⟨x, hx, -⟩ | ⟨-, -, rfl⟩ | ⟨u, -, -, -, rfl⟩ | ⟨i, -, -, hd, hi⟩
  case inl =>
    rw [hr] at hx
    cases hx
  case inr.inl | inr.inr.inl => cases hf
  case inr.inr.inr =>
    obtain ⟨hw, ha, hbits⟩ := (exec_raises hr hi hf).2 a w rfl
    refine ⟨?_, ha⟩
    calc w = encode i := hw
      _ = s.mem.readWord s.pc.toNat &&& usedBits i := (encodeInvertsDecode _ i hd).2
      _ = s.mem.readWord s.pc.toNat := by rw [hbits]; exact and_FFFF _

/-! ### The countdown (R360) -/

/-- A tick takes one off a timer, floored at 0. -/
theorem tickTimer_toNat (b : Byte) : (tickTimer b).toNat = b.toNat - 1 := by
  unfold tickTimer
  split
  · rw [BitVec.toNat_ofNat, Nat.mod_eq_of_lt (by omega)]
  · next hzero =>
    rw [Nat.eq_zero_of_not_pos hzero]
    rfl

/-- Settles O52, by induction on the number of ticks, the first of which is made from `s`. -/
theorem ticksCountDownToZero : Obligations.TicksCountDownToZero := by
  intro n
  induction n with
  | zero => exact fun s => ⟨s, rfl, rfl, rfl, rfl⟩
  | succ n ih =>
    intro s
    obtain ⟨t, ht, hdt, hst, hrest⟩ := ih s.tickTimers
    rw [State.tickTimers_dt, tickTimer_toNat] at hdt
    rw [State.tickTimers_st, tickTimer_toNat] at hst
    exact ⟨t, ht, by omega, by omega, hrest⟩

/-! ### The keypad, the screen and the beep (R363, R365, R367) -/

/-- Settles O53: the response of `should_beep` is the beep itself. -/
theorem keypadVideoAndBeep : Obligations.KeypadVideoAndBeep := by
  intro s k
  have hbeep (b : Bool) : (s.perform .shouldBeep).2 = .beep b ↔ s.shouldBeep = b :=
    ⟨Response.beep.inj, congrArg Response.beep⟩
  refine ⟨rfl, rfl, rfl, (hbeep true).trans State.shouldBeep_iff, (hbeep false).trans ?_⟩
  rw [← Bool.not_eq_true, State.shouldBeep_iff, not_not]

end Sys2Proof.Machine
end

section
/-! SUPPORT. Proofs of the family 70_reset_and_hazards: ticks commute with instructions (O22), and what a load does (O54, O55). -/

namespace Sys2Proof.Machine

/-! ### Ticks and instructions (R361, R394) -/

/-- Two runs that branch on one condition take the same branch. -/
theorem BothNext.ite {R : State → State → Prop} {p : Prop} [Decidable p] {t u t' u' : State} (ht : R t t') (hu : R u u') :
    BothNext R (if p then .next t else .next u) (if p then .next t' else .next u') := by
  by_cases hp : p
  · exact ⟨t, t', if_pos hp, if_pos hp, ht⟩
  · exact ⟨u, u', if_neg hp, if_neg hp, hu⟩

/-- Writing any registers and moving PC on commutes with a tick. The registers are a variable, so that no check evaluates them. -/
theorem State.withV_advance_tickTimers (s : State) (v : Vector Byte 16) :
    ({ s.tickTimers with v := v } : State).advance = ({ s with v := v } : State).advance.tickTimers := rfl

/-- An instruction that names no timer takes the ticked state to the ticked result: its checks, and what it writes, do not look at
a timer. -/
theorem exec_tickTimers {i : Instr} (s : State) (hget : ∀ x, i ≠ .ldVxDT x) (hdt : ∀ x, i ≠ .ldDTVx x)
    (hst : ∀ x, i ≠ .ldSTVx x) : BothNext (fun t u => u = t.tickTimers) (exec i s) (exec i s.tickTimers) := by
  cases i
  case ldVxDT x => exact absurd rfl (hget x)
  case ldDTVx x => exact absurd rfl (hdt x)
  case ldSTVx x => exact absurd rfl (hst x)
  case call | jpV0 | addI => exact .ite rfl rfl
  case ret =>
    cases h : s.stack.getLast? with
    | none => exact ⟨_, _, exec_ret_underflow h, exec_ret_underflow (s := s.tickTimers) h, rfl⟩
    | some a => exact ⟨_, _, exec_ret_pop h, exec_ret_pop (s := s.tickTimers) h, rfl⟩
  case drn | ldB | ldMemVx => exact .withTransfer rfl (fun _ => rfl) rfl
  case ldVxMem => exact .withTransfer rfl (fun _ => rfl) (s.withV_advance_tickTimers _)
  all_goals exact ⟨_, _, rfl, rfl, rfl⟩

/-- Settles O22: the instruction answers from both states, and from `s` it answers `t`. -/
theorem ticksCommuteWithOtherInstructions : Obligations.TicksCommuteWithOtherInstructions := by
  intro i s t hget hdt hst h
  obtain ⟨t', _, ht, hu, rfl⟩ := exec_tickTimers s hget hdt hst
  obtain rfl : t' = t := Host.Outcome.next.inj (ht.symm.trans h)
  exact hu

/-! ### Load (R382, R383) -/

/-- Memory after a load: the ROM at 0x200, and the reset contents, font and zeros, elsewhere (R78, R382). -/
theorem State.read_loaded (s : State) {rom : List Byte} (h : 0x200 + rom.length ≤ 4096) (a : Nat) :
    (s.loaded rom).mem.read a = if 0x200 ≤ a ∧ a < 0x200 + rom.length then rom.getD (a - 0x200) 0 else resetByte a :=
  Memory.read_writeBytes Memory.initial 0x200 rom a h

/-- Settles O54: memory is the ROM over the reset contents, and all else but keypad, draws and dialect is the reset state. -/
theorem loadInitialisesTheCore : Obligations.LoadInitialisesTheCore := by
  intro s rom h
  have hregs : ∀ r, State.reset.getV r = 0 := resetState.1
  exact ⟨s.loaded rom, s.load_fits (by omega), fun a _ => s.read_loaded h a, hregs, rfl, rfl, rfl, rfl, rfl,
    Framebuffer.get_off, rfl, rfl, rfl, rfl, (s.loaded_inv rom).memory_canonical⟩

/-- Settles O55: a ROM either fits or is oversized. -/
theorem oversizedRomFailsToLoad : Obligations.OversizedRomFailsToLoad := by
  refine fun s rom => ⟨fun hlong => s.load_oversized (Nat.not_le.2 hlong), fun hfits => ?_⟩
  rw [s.load_fits hfits]

end Sys2Proof.Machine
end
